-- ==== Sys2Proof/Word.lean ====
section
/-! DEFINITION. Word.lean: the bit-vector types of the core, and the 384-bit working integer as twelve
words (spec/00_scope.md R6, R10; spec/10_state.md R32). -/

namespace Sys2Proof

/-- One 8-bit slot of the operand or the result buffer (R28, R29). -/
abbrev Byte := BitVec 8

/-- One 32-bit word: a word of the working integer, or the value of a 4-byte register access (R6, R54). -/
abbrev Word := BitVec 32

/-- The 384-bit working integer `W`: twelve words, index 0 least significant (R10, R32). -/
abbrev Words := Vector Word 12

end Sys2Proof
end

