-- ==== Sys2Proof/Machine/Rom.lean ====
section
/-! DEFINITION. Machine/Rom.lean: the fixed sizes and biases (spec/00_scope.md R6), the tryte-value ROM with the four
lookup functions (spec/40_lookup_rom.md R100 to R104), and the bias-constant ROM (spec/41_integer_datapath.md R121). -/

namespace Sys2Proof.Machine

/-- `NTRITS` (R6). -/
@[simp] abbrev nTrits : Nat := 243
/-- `NTRYTES` (R6). -/
@[simp] abbrev nTrytes : Nat := 81
/-- `NBYTES` (R6). -/
@[simp] abbrev nBytes : Nat := 48
/-- `RADIX` (R6). -/
@[simp] abbrev radix : Nat := 27
/-- `HALF_TRYTE`, the bias of a digit (R6). -/
@[simp] abbrev halfTryte : Int := 13
/-- `TOP_BIAS`, the bias of the most significant digit (R6; spec/90_conflicts.md C1). -/
@[simp] abbrev topBias : Int := 4

/-- One entry of the tryte-value ROM: a symbol in ASCII, its value, its trits with `t0` least significant (R100). -/
structure RomRow where
  value : Int
  symbol : Byte
  t0 : Int
  t1 : Int
  t2 : Int
  deriving DecidableEq, Repr

/-- The tryte-value ROM, in the order of the table of R100. -/
def tryteRom : List RomRow := [
  { value := -13, symbol := 0x4E, t0 := -1, t1 := -1, t2 := -1 },
  { value := -12, symbol := 0x4F, t0 := 0, t1 := -1, t2 := -1 },
  { value := -11, symbol := 0x50, t0 := 1, t1 := -1, t2 := -1 },
  { value := -10, symbol := 0x51, t0 := -1, t1 := 0, t2 := -1 },
  { value := -9, symbol := 0x52, t0 := 0, t1 := 0, t2 := -1 },
  { value := -8, symbol := 0x53, t0 := 1, t1 := 0, t2 := -1 },
  { value := -7, symbol := 0x54, t0 := -1, t1 := 1, t2 := -1 },
  { value := -6, symbol := 0x55, t0 := 0, t1 := 1, t2 := -1 },
  { value := -5, symbol := 0x56, t0 := 1, t1 := 1, t2 := -1 },
  { value := -4, symbol := 0x57, t0 := -1, t1 := -1, t2 := 0 },
  { value := -3, symbol := 0x58, t0 := 0, t1 := -1, t2 := 0 },
  { value := -2, symbol := 0x59, t0 := 1, t1 := -1, t2 := 0 },
  { value := -1, symbol := 0x5A, t0 := -1, t1 := 0, t2 := 0 },
  { value := 0, symbol := 0x39, t0 := 0, t1 := 0, t2 := 0 },
  { value := 1, symbol := 0x41, t0 := 1, t1 := 0, t2 := 0 },
  { value := 2, symbol := 0x42, t0 := -1, t1 := 1, t2 := 0 },
  { value := 3, symbol := 0x43, t0 := 0, t1 := 1, t2 := 0 },
  { value := 4, symbol := 0x44, t0 := 1, t1 := 1, t2 := 0 },
  { value := 5, symbol := 0x45, t0 := -1, t1 := -1, t2 := 1 },
  { value := 6, symbol := 0x46, t0 := 0, t1 := -1, t2 := 1 },
  { value := 7, symbol := 0x47, t0 := 1, t1 := -1, t2 := 1 },
  { value := 8, symbol := 0x48, t0 := -1, t1 := 0, t2 := 1 },
  { value := 9, symbol := 0x49, t0 := 0, t1 := 0, t2 := 1 },
  { value := 10, symbol := 0x4A, t0 := 1, t1 := 0, t2 := 1 },
  { value := 11, symbol := 0x4B, t0 := -1, t1 := 1, t2 := 1 },
  { value := 12, symbol := 0x4C, t0 := 0, t1 := 1, t2 := 1 },
  { value := 13, symbol := 0x4D, t0 := 1, t1 := 1, t2 := 1 }]

/-- The entry of the value 0. -/
def zeroRow : RomRow := { value := 0, symbol := 0x39, t0 := 0, t1 := 0, t2 := 0 }

/-- The ROM entry of a tryte value (R100). Every use has `v` in [-13, 13]; the index is taken modulo 27 as in the
closed form of R102, so no index falls outside the table (log entry 15). -/
def romRow (v : Int) : RomRow := tryteRom.getD ((v + 13) % 27).toNat zeroRow

/-- `letterToValue` (R101): the value of the row whose symbol is `s`; nothing where `s` is not one of the 27 symbol
codes, which is the INVALID_ELEMENT case of R74 and R204. -/
def letterToValue (s : Byte) : Option Int :=
  (tryteRom.find? (fun row => row.symbol == s)).map RomRow.value

/-- `valueToLetter` (R102), in ASCII. -/
def valueToLetter (v : Int) : Byte := (romRow v).symbol

/-- `valueToTritTriple` (R103): `(t0, t1, t2)`, least significant first. -/
def valueToTritTriple (v : Int) : Int × Int × Int :=
  ((romRow v).t0, (romRow v).t1, (romRow v).t2)

/-- `tritTripleToValue` (R104). -/
def tritTripleToValue (t0 t1 t2 : Int) : Int := t0 + 3 * t1 + 9 * t2

/-- `halfThree`, words least significant first (R121). -/
def halfThree : Words :=
  #v[0xa5ce8964, 0x9f007669, 0x1484504f, 0x3ade00d9, 0x0c24486e, 0x50979d57,
     0x79a4c702, 0x48bbae36, 0xa9f6808b, 0xaa06a805, 0xa87fabdf, 0x5e69ebef]

/-- `trit243`, words least significant first (R121). -/
def trit243 : Words :=
  #v[0x4b9d12c9, 0x3e00ecd3, 0x2908a09f, 0x75bc01b2, 0x184890dc, 0xa12f3aae,
     0xf3498e04, 0x91775c6c, 0x53ed0116, 0x540d500b, 0x50ff57bf, 0xbcd3d7df]

/-- `negHalfThree`, words least significant first (R121). -/
def negHalfThree : Words :=
  #v[0x5a31769c, 0x60ff8996, 0xeb7bafb0, 0xc521ff26, 0xf3dbb791, 0xaf6862a8,
     0x865b38fd, 0xb74451c9, 0x56097f74, 0x55f957fa, 0x57805420, 0xa1961410]

end Sys2Proof.Machine
end

