-- ==== Sys2Proof/Machine/Datapath.lean ====
section
/-! DEFINITION. Machine/Datapath.lean: the 384-bit integer datapath (spec/41_integer_datapath.md R120, R123 to R130):
the word-by-word micro-operations with the NZ bound, as the pseudocode of each rule writes them.

The loops run over the list of words, least significant first. -/

namespace Sys2Proof.Machine

/-! ### The views of the working integer (R10) -/

/-- The unsigned value of a list of words, least significant first. -/
def limbs : List Word → Nat
  | [] => 0
  | w :: ws => w.toNat + 2 ^ 32 * limbs ws

/-- Twelve words from a list, least significant first. -/
def wordsOfList (l : List Word) : Words := Vector.ofFn (fun j => l.getD j.val 0)

/-- `u384(W)` (R10). -/
def u384 (w : Words) : Nat := limbs w.toList

/-- `IsNegative(W)`: bit 31 of word 11 (R124). -/
def isNegative (w : Words) : Bool := w[11].getLsbD 31

/-- `s384(W)` (R10). -/
def s384 (w : Words) : Int := if isNegative w then (u384 w : Int) - 2 ^ 384 else u384 w

/-- `W <- v`: `trunc_384(v)` split into words (R10, R120). -/
def wordsOfInt (v : Int) : Words :=
  Vector.ofFn (fun j => BitVec.ofNat 32 ((v % 2 ^ 384).toNat / 2 ^ (32 * j.val)))

/-! ### The byte order (R51, R52, R123) -/

/-- Word `j` of the 48 external bytes: slots 44-4j to 47-4j, the first in bits [31:24] (R52). -/
def wordOfBytes (b : List Byte) (j : Nat) : Word :=
  b.getD (44 - 4 * j) 0 ++ (b.getD (45 - 4 * j) 0 ++ (b.getD (46 - 4 * j) 0 ++ b.getD (47 - 4 * j) 0))

/-- `LoadBytes(b[0..47])` (R123). -/
def loadBytes (b : List Byte) : Words := Vector.ofFn (fun j => wordOfBytes b j.val)

/-- The four external bytes of a word, bits [31:24] first (R52). -/
def bytesOfWord (w : Word) : List Byte :=
  [w.extractLsb' 24 8, w.extractLsb' 16 8, w.extractLsb' 8 8, w.extractLsb' 0 8]

/-- `StoreBytes()`: word 11 fills slots 0 to 3, word 0 slots 44 to 47 (R52, R123). -/
def storeBytes (w : Words) : List Byte := w.toList.reverse.flatMap bytesOfWord

/-! ### Compare, add, subtract -/

/-- `Compare(A, B)`, signed: `.lt` is the rule's -1, `.eq` its 0, `.gt` its +1 (R125). -/
def compareSigned (a b : Words) : Ordering :=
  if s384 a < s384 b then .lt else if s384 a = s384 b then .eq else .gt

/-- `Add(W, K)`, modulo 2^384 (R126). -/
def addWords (w k : Words) : Words := wordsOfInt ((u384 w : Int) + u384 k)

/-- `Subtract(W, K)`, modulo 2^384 (R127). -/
def subtractWords (w k : Words) : Words := wordsOfInt ((u384 w : Int) - u384 k)

/-! ### Add-small, multiply and divide (R128 to R130) -/

/-- The loop of R128: add the carry `c` to the lowest word of the list and go on upward while there is a carry and a
word left. The answer's second part is how many words above the first one the last written word lies. -/
def addSmallLoop : List Word → Nat → List Word × Nat
  | [], _ => ([], 0)
  | w :: ws, c =>
    let sum := w.toNat + c
    if sum / 2 ^ 32 = 0 ∨ ws = [] then (BitVec.ofNat 32 sum :: ws, 0)
    else
      let r := addSmallLoop ws (sum / 2 ^ 32)
      (BitVec.ofNat 32 sum :: r.1, r.2 + 1)

/-- `AddSmall(W, s)`: the new `W` and the index of the highest word written (R128). -/
def addSmall (w : Words) (n : Nat) : Words × Nat :=
  let r := addSmallLoop w.toList n
  (wordsOfList r.1, r.2)

/-- The loop of R129: multiply each word by 27 and add the carry; the answer's second part is the carry left. -/
def mulLoop : List Word → Nat → List Word × Nat
  | [], c => ([], c)
  | w :: ws, c =>
    let p := w.toNat * radix + c
    let r := mulLoop ws (p / 2 ^ 32)
    (BitVec.ofNat 32 p :: r.1, r.2)

/-- `MulRadix(W, NZ)`: the new `W` and the new `NZ` (R129). -/
def mulRadix (w : Words) (nz : Nat) : Words × Nat :=
  let r := mulLoop (w.toList.take (nz + 1)) 0
  let above := w.toList.drop (nz + 1)
  if r.2 ≠ 0 ∧ nz < 11 then (wordsOfList (r.1 ++ above.set 0 (BitVec.ofNat 32 r.2)), nz + 1)
  else (wordsOfList (r.1 ++ above), nz)

/-- The loop of R130, from the most significant word of the list downward: the quotient words and the remainder. -/
def divLoop : List Word → List Word × Nat
  | [] => ([], 0)
  | w :: ws =>
    let r := divLoop ws
    let cur := r.2 * 2 ^ 32 + w.toNat
    (BitVec.ofNat 32 (cur / radix) :: r.1, cur % radix)

/-- What `DivRadix` answers: the quotient `W`, the remainder and the new `NZ`. -/
structure DivResult where
  quotient : Words
  rem : Nat
  nz : Nat
  deriving DecidableEq, Repr

/-- `DivRadix(W, NZ)` (R130). -/
def divRadix (w : Words) (nz : Nat) : DivResult :=
  let r := divLoop (w.toList.take (nz + 1))
  let q := wordsOfList (r.1 ++ w.toList.drop (nz + 1))
  { quotient := q, rem := r.2, nz := if q.toList.getD nz 0 = 0 ∧ 0 < nz then nz - 1 else nz }

/-- The highest index of a nonzero word, 0 if there is none. -/
def highestNonzeroLoop : List Word → Nat
  | [] => 0
  | _ :: ws => if ws.all (· == 0) then 0 else highestNonzeroLoop ws + 1

/-- The NZ bound the decoder starts with: the highest `j` with `W.w[j] != 0`, or 0 if `W` is 0 (R173). -/
def highestNonzero (w : Words) : Nat := highestNonzeroLoop w.toList

end Sys2Proof.Machine
end

