-- ==== Sys2Proof/Syntax.lean ====
section
/-! DEFINITION. Syntax.lean: the nine operations of the core, one constructor for each row of
spec/opcode_table.json (spec/30_encoding.md R72). An operation's only operand field is the element count `LEN`
that the command word carries (R70, R75). -/

namespace Sys2Proof

/-- A command the core runs. `len` is the command's `LEN` field: the number of operand elements the host says it
presents in `IN[0]` to `IN[LEN-1]` (R70). -/
inductive Instr where
  /-- `T2B`, OP 0x1: 81 symbols to 48 bytes (R156). -/
  | t2b (len : Nat)
  /-- `TR2B`, OP 0x2: 243 trits to 48 bytes (R157). -/
  | tr2b (len : Nat)
  /-- `B2T`, OP 0x3: 48 bytes to 81 symbols (R177). -/
  | b2t (len : Nat)
  /-- `B2TR`, OP 0x4: 48 bytes to 243 trits (R178). -/
  | b2tr (len : Nat)
  /-- `ZLT`, OP 0x5: zero the last trit of a 48-byte integer (R144). -/
  | zlt (len : Nat)
  /-- `L2V`, OP 0x6: letter to value (R105). -/
  | l2v (len : Nat)
  /-- `V2L`, OP 0x7: value to letter (R106). -/
  | v2l (len : Nat)
  /-- `V2TR`, OP 0x8: value to trit triple (R107). -/
  | v2tr (len : Nat)
  /-- `TR2V`, OP 0x9: trit triple to value (R108). -/
  | tr2v (len : Nat)
  deriving DecidableEq, Repr

/-- The `LEN` field of a command. -/
def Instr.len : Instr → Nat
  | .t2b len | .tr2b len | .b2t len | .b2tr len | .zlt len
  | .l2v len | .v2l len | .v2tr len | .tr2v len => len

end Sys2Proof
end

