-- ==== Sys2Proof/WellFormed.lean ====
section
/-! DEFINITION. WellFormed.lean: which terms of `Instr` a command word can carry. -/

namespace Sys2Proof

/-- `LEN` is an 8-bit field, so a command carries 0 to 255 (R70). A wrong length is well formed: the core answers
it with LENGTH_ERROR (R201); a length of 256 or more "cannot be written". -/
def Instr.wf (i : Instr) : Bool := decide (i.len ≤ 255)

end Sys2Proof
end

