-- ==== Sys2Proof/Decode.lean ====
section
/-! DEFINITION. Decode.lean: the command word of spec/30_encoding.md R70 to R73 and R76, decoded and encoded.

The command register moves as ONE 32-bit quantity (spec/20_memory.md R54), so the decoder takes a 32-bit value and
there is no byte order to fix. -/

namespace Sys2Proof

/-- Why a command word stands for no operation (R73). The core answers either with ILLEGAL_OP (R202). -/
inductive DecodeError where
  /-- `RSV0` (bits [7:4]) or `RSV1` (bits [31:16]) is not 0. -/
  | reservedBits
  /-- `OP` is 0x0 or in 0xA to 0xF. -/
  | unassignedOp
  deriving DecidableEq, Repr

/-- The `OP` field, bits [3:0] (R70). -/
def opField (c : Word) : BitVec 4 := c.extractLsb' 0 4

/-- The `RSV0` field, bits [7:4] (R70). -/
def rsv0Field (c : Word) : BitVec 4 := c.extractLsb' 4 4

/-- The `LEN` field, bits [15:8] (R70). -/
def lenField (c : Word) : BitVec 8 := c.extractLsb' 8 8

/-- The `RSV1` field, bits [31:16] (R70). -/
def rsv1Field (c : Word) : BitVec 16 := c.extractLsb' 16 16

/-- The operation of an `OP` code (R72), or nothing for an unassigned code (R73). -/
def instrOfOp (op : Nat) (len : Nat) : Option Instr :=
  match op with
  | 1 => some (.t2b len)
  | 2 => some (.tr2b len)
  | 3 => some (.b2t len)
  | 4 => some (.b2tr len)
  | 5 => some (.zlt len)
  | 6 => some (.l2v len)
  | 7 => some (.v2l len)
  | 8 => some (.v2tr len)
  | 9 => some (.tr2v len)
  | _ => none

/-- The decoder: total on every command word, and an illegal word is rejected by name (R73, R75). -/
def decode (c : Word) : Except DecodeError Instr :=
  if rsv0Field c ≠ 0 ∨ rsv1Field c ≠ 0 then .error .reservedBits
  else
    match instrOfOp (opField c).toNat (lenField c).toNat with
    | some i => .ok i
    | none => .error .unassignedOp

/-- The `OP` code of an operation (R72). -/
def opcode : Instr → BitVec 4
  | .t2b _ => 0x1
  | .tr2b _ => 0x2
  | .b2t _ => 0x3
  | .b2tr _ => 0x4
  | .zlt _ => 0x5
  | .l2v _ => 0x6
  | .v2l _ => 0x7
  | .v2tr _ => 0x8
  | .tr2v _ => 0x9

/-- The encoder: `RSV1`, `LEN`, `RSV0`, `OP`, most significant field first (R70). -/
def encode (i : Instr) : Word :=
  0#16 ++ (BitVec.ofNat 8 i.len ++ (0#4 ++ opcode i))

/-- The command word of a table word: the low `nbits` bits of `w`, every bit above them 0, if that fits the one
32-bit word a command is (R76). -/
def tableWord (nbits w : Nat) : Option Word :=
  let bits := w % 2 ^ nbits
  if bits < 2 ^ 32 then some (BitVec.ofNat 32 bits) else none

/-- The operation the decoder reads from an instruction whose bits are `w`, numbered as spec/opcode_table.json
numbers them. -/
def decodeTableWord (nbits w : Nat) : Option Instr :=
  match tableWord nbits w with
  | none => none
  | some c =>
    match decode c with
    | .ok i => some i
    | .error _ => none

end Sys2Proof
end

