-- ==== Sys2Proof/Config.lean ====
section
/-! DEFINITION. Config.lean: what the spec leaves to an implementation or to a platform (spec/00_scope.md R7), and
the free values of the model. Every entry is an uninterpreted constant: no proof can see its value. -/

namespace Sys2Proof.Config

/-- `LATENCY`: the clock cycles of an operation, by its `OP` code (R7, R240, D24). No rule of the model depends on
it: the model has no time (R234). -/
opaque latency : BitVec 4 → Nat

/-- `CORE_BASE`: the platform address of the register window of one core (R7, R57, D6); where a platform places
several cores, the base of each one's own window, by its number (R221; log entry 13). -/
opaque coreBase : Nat → Nat

/-- One less than `NUM_INSTANCES`. -/
opaque extraInstances : Nat

/-- `NUM_INSTANCES`: the number of independent cores a platform places, at least 1 (R7, R221, D23). -/
def numInstances : Nat := extraInstances + 1

/-- FREE VALUE (log entry 4). What the `n`-th host read of an operand slot that nothing has written returns: the spec
treats it as `any value` (spec/93_implementation_defined.md U10). DESIGN CHOICE, unsafe (log entries 4 and 13): the
value is not indexed by core, so the `n`-th such read of any two cores of a platform returns the same byte, where R221
gives each core buffers of its own and U10 leaves every such read open. -/
opaque unwrittenIn : Nat → Byte

/-! FREE VALUES (log entry 6). What the hidden state holds once the `n`-th operation has ended, and until the next one
writes it: `any value` (spec/93_implementation_defined.md U15), within the range the state's own rule gives it.
DESIGN CHOICE, unsafe (log entries 6 and 13): none of them is indexed by core, so the hidden state of any two cores of
a platform is the same after the `n`-th operation of each, where R221 gives each core a datapath state of its own. -/

/-- `LCMD` after the `n`-th operation (R36). -/
opaque deadLcmd : Nat → Word

/-- `V[i] + 13` after the `n`-th operation: `V[i]` is in [-13, 13] (R31). -/
opaque deadDigit : Nat → Fin 81 → Fin 27

/-- `W` after the `n`-th operation (R32). -/
opaque deadW : Nat → Words

/-- `NZ` after the `n`-th operation: in [0, 11] (R33). -/
opaque deadNz : Nat → Fin 12

/-- The sequencer's operation code after the `n`-th operation (R35). -/
opaque deadSeqOp : Nat → BitVec 4

/-- The sequencer's latched `LEN` after the `n`-th operation (R35). -/
opaque deadSeqLen : Nat → BitVec 8

/-- The sequencer's loop index after the `n`-th operation: in [0, 242] (R35). -/
opaque deadSeqIndex : Nat → Fin 243

end Sys2Proof.Config
end

