-- ==== Sys2Proof/Machine/State.lean ====
section
/-! DEFINITION. Machine/State.lean: every piece of state spec/10_state.md gives the core, as plain data, its value
after reset (R38), and the reasons a step can stop (spec/60_exceptions.md R210).

The two constant ROMs (R34) never change: they are the definitions of Machine/Rom.lean, not fields. -/

namespace Sys2Proof.Machine

/-- `STATUS.STATE` (R24). -/
inductive CoreState where
  /-- 0: no operation since reset. -/
  | idle
  /-- 1: an operation runs. -/
  | busy
  /-- 2: the last operation completed with results in OUT. -/
  | done
  /-- 3: the last operation ended with an error and wrote no results. -/
  | error
  deriving DecidableEq, Repr

/-- `STATUS.ERR` (R24, R200). -/
inductive ErrCode where
  /-- 0. -/
  | none
  /-- 1. -/
  | lengthError
  /-- 2. -/
  | illegalOp
  /-- 3. -/
  | invalidElement
  deriving DecidableEq, Repr

/-- The fields of `STATUS` (R24). The reserved bits are hard-wired to 0 and appear in the register's packing alone
(Machine/Flags.lean). -/
structure Status where
  /-- `STATE`, bits [1:0]. -/
  state : CoreState
  /-- `ERR`, bits [5:4]. -/
  err : ErrCode
  /-- `EXPECTED`, bits [15:8]: on LENGTH_ERROR the length the operation expects, otherwise 0. -/
  expected : BitVec 8
  /-- `ERR_INDEX`, bits [23:16]: on INVALID_ELEMENT the lowest invalid slot, otherwise 0. -/
  errIndex : BitVec 8
  /-- `LAST_OP`, bits [27:24]: the `OP` field of the last command written. -/
  lastOp : BitVec 4
  deriving DecidableEq, Repr

/-- The error an operation ends with, and what it records (R200, R203). -/
inductive CoreError where
  /-- LENGTH_ERROR, recording the expected length (R201). -/
  | lengthError (expected : Nat)
  /-- ILLEGAL_OP (R202). -/
  | illegalOp
  /-- INVALID_ELEMENT, recording the lowest invalid slot (R204). -/
  | invalidElement (index : Nat)
  deriving DecidableEq, Repr

/-- The sequencer: the running operation's code, its latched `LEN` and its loop index (R35). -/
structure Sequencer where
  op : BitVec 4
  len : BitVec 8
  index : Nat
  deriving DecidableEq, Repr

/-- The slots of the register window that hold a byte: `(window offset, byte)`, offsets strictly rising. `IN[k]` is
at 0x100 + k and `OUT[k]` at 0x200 + k (spec/20_memory.md R54). An offset is listed exactly when the slot's
`in_written` or `out_valid` flag is set (R28, R29); an unlisted slot has no value (R38; log entry 8). -/
abbrev Memory := List Host.Cell

/-- One host access of the register window: `HostRead(off, n)` or `HostWrite(off, n, v)` (R11). A 4-byte access moves
one 32-bit value; of a 1-byte write the low byte of `v` is the byte written (R54; log entry 11). -/
inductive HostAccess where
  | read (off n : Nat)
  | write (off n : Nat) (v : Word)
  deriving DecidableEq, Repr

/-- What happens next at the core: one access by a host, one move of the core, or the reset input (R20, R230). -/
inductive Event where
  /-- A host, whichever, accesses the window (R59; log entry 14). -/
  | host (a : HostAccess)
  /-- The core moves: a BUSY core completes its operation (R234). -/
  | coreRun
  /-- The platform asserts and releases reset (R230; log entry 12). -/
  | reset
  deriving DecidableEq, Repr

/-- What the last host read returned (the model's own; log entry 2). -/
inductive Reply where
  /-- No host has read anything yet. -/
  | none
  /-- The 32-bit value of a register. -/
  | word (v : Word)
  /-- The byte of a slot. -/
  | byte (v : Byte)
  deriving DecidableEq, Repr

/-- The state of one core, and of the model's host side. -/
structure State where
  /-- The register `STATUS` (R24). -/
  status : Status
  /-- `OUT_LEN.COUNT` (R27). -/
  outLen : BitVec 8
  /-- The latched command `LCMD` (R36). -/
  lcmd : Word
  /-- The buffers `IN` and `OUT` with their flags (R28, R29). -/
  mem : Memory
  /-- The tryte-value buffer `V[0..80]` (R31). -/
  v : Vector Int 81
  /-- The working integer `W` (R32). -/
  w : Words
  /-- The NZ bound (R33). -/
  nz : Nat
  /-- The sequencer (R35). -/
  seq : Sequencer
  /-- The model's own: the events still to come, next first (log entry 1). -/
  agenda : List Event
  /-- The model's own: what the last host read returned (log entry 2). -/
  reply : Reply
  /-- The model's own: how many reads of an unwritten slot there have been, the argument of the free value
  `Config.unwrittenIn` (log entry 4). -/
  freeReads : Nat
  /-- The model's own: how many operations have ended, the argument of the free values of the hidden state
  (log entry 6). -/
  retired : Nat
  deriving DecidableEq, Repr

/-- The host misuse that R210 lists. -/
inductive ProtocolReason where
  /-- R210(a): an access R54 or R55 does not admit: a reserved offset, an offset past the window, a wrong width, a
  misaligned access, a read of `CMD`, a write of `STATUS`, `OUT_LEN` or an `OUT` slot. Raised by `hostRead` and
  `hostWrite`. Safe. -/
  | accessNotAdmitted (off n : Nat)
  /-- R210(b): a write of `CMD` while BUSY. Raised by `hostWrite`. Safe. -/
  | commandWhileBusy
  /-- R210(c): a write of `IN[k]` while BUSY. Raised by `hostWrite`. Safe. -/
  | operandWriteWhileBusy (k : Nat)
  /-- R210(d): a read of `OUT[k]` while its `out_valid` flag is clear. Raised by `hostRead`. Safe. -/
  | invalidResultRead (k : Nat)
  /-- R210(e): an operation reaches `IN[k]` while its `in_written` flag is clear. Raised by `runOperation`. Safe. -/
  | unwrittenOperand (k : Nat)
  deriving DecidableEq, Repr

/-- Why the machine stops. -/
inductive Fault where
  /-- `fault HOST_PROTOCOL(reason)`: host behaviour the spec does not admit, where the real core's behaviour is
  unspecified (R210; log entry 16). Raised by a host access or by an operation that reaches an unwritten slot. Safe: nothing is
  proved of the run after it. -/
  | hostProtocol (reason : ProtocolReason)
  deriving DecidableEq, Repr

/-- Why an instruction has no meaning. -/
inductive Refusal where
  /-- Raised by an arm of `exec` whose instruction has no meaning yet; every arm has one. Safe. -/
  | notModelled (mnemonic : String)
  deriving DecidableEq, Repr

/-- The machine right after reset (R38, R230). `LCMD`, `V`, `W`, `NZ` and the sequencer are unspecified there and
cannot be observed; the model's value is 0 (log entry 5). -/
def State.reset : State where
  status := { state := .idle, err := .none, expected := 0, errIndex := 0, lastOp := 0 }
  outLen := 0
  lcmd := 0
  mem := []
  v := Vector.replicate 81 0
  w := Vector.replicate 12 0
  nz := 0
  seq := { op := 0, len := 0, index := 0 }
  agenda := []
  reply := .none
  freeReads := 0
  retired := 0

end Sys2Proof.Machine
end

