-- ==== Sys2Proof/Machine/Flags.lean ====
section
/-! DEFINITION. Machine/Flags.lean: the values `STATUS` and `OUT_LEN` read as (spec/10_state.md R24, R27).

The core has no arithmetic flags (R25): no operation computes one. -/

namespace Sys2Proof.Machine

/-- The 2-bit code of `STATUS.STATE` (R24). -/
def CoreState.code : CoreState → BitVec 2
  | .idle => 0
  | .busy => 1
  | .done => 2
  | .error => 3

/-- The 2-bit code of `STATUS.ERR` (R24, R200). -/
def ErrCode.code : ErrCode → BitVec 2
  | .none => 0
  | .lengthError => 1
  | .illegalOp => 2
  | .invalidElement => 3

/-- The 32-bit value of `STATUS`; bits [31:28], [7:6] and [3:2] read 0 (R24). -/
def Status.pack (st : Status) : Word :=
  0#4 ++ (st.lastOp ++ (st.errIndex ++ (st.expected ++ (0#2 ++ (st.err.code ++ (0#2 ++ st.state.code))))))

/-- The 32-bit value of `OUT_LEN`: `COUNT` in [7:0], bits [31:8] read 0 (R27). -/
def packOutLen (count : BitVec 8) : Word := 0#24 ++ count

end Sys2Proof.Machine
end

