-- ==== Sys2Proof/Machine/Ops.lean ====
section
/-! DEFINITION. Machine/Ops.lean: the named operations over the slots and the registers: the slot buffers, an
operation's two endings (spec/60_exceptions.md R203, R206), the command write (spec/30_encoding.md R71), the host's
accesses (spec/20_memory.md R54 to R56) and reset (spec/10_state.md R38, R39).

Taking an exception is `raiseError`: the core has no trap (R208), an error is the status write of R203. There is no
return from one (R209): the host recovers by a new command, `startCommand`. -/

namespace Sys2Proof.Machine

/-! ### The slots -/

/-- The byte at a window offset, if the slot holds one. -/
def Memory.read (m : Memory) (a : Nat) : Option Byte :=
  match m with
  | [] => none
  | (b, x) :: rest => if a = b then some x else Memory.read rest a

/-- Store a byte at a window offset, keeping the offsets strictly rising. -/
def Memory.write (m : Memory) (a : Nat) (x : Byte) : Memory :=
  match m with
  | [] => [(a, x)]
  | (b, y) :: rest =>
    if a < b then (a, x) :: (b, y) :: rest
    else if a = b then (a, x) :: rest
    else (b, y) :: Memory.write rest a x

/-- Store bytes at consecutive window offsets from `a` upward. -/
def Memory.writeList (m : Memory) (a : Nat) (xs : List Byte) : Memory :=
  match xs with
  | [] => m
  | x :: rest => Memory.writeList (m.write a x) (a + 1) rest

/-- Clear every slot of `OUT`. -/
def Memory.dropOut (m : Memory) : Memory := m.filter (fun c => decide (c.1 < 0x200))

/-- The canonical form: offsets strictly rising. An unlisted offset has no value, so no entry can equal it. -/
abbrev Memory.wf (m : Memory) : Prop := m.Pairwise (fun c d => c.1 < d.1)

/-- The window offset of `IN[k]` (R54). -/
def inAddr (k : Nat) : Nat := 0x100 + k

/-- The window offset of `OUT[k]` (R54). -/
def outAddr (k : Nat) : Nat := 0x200 + k

/-- `IN[k]`, if `in_written[k]` is set (R28). -/
def State.inSlot (s : State) (k : Nat) : Option Byte := s.mem.read (inAddr k)

/-- `OUT[k]`, if `out_valid[k]` is set (R29). -/
def State.outSlot (s : State) (k : Nat) : Option Byte := s.mem.read (outAddr k)

/-- `in_written[k]` (R28). -/
def State.inWritten (s : State) (k : Nat) : Bool := (s.inSlot k).isSome

/-- `out_valid[k]` (R29). -/
def State.outValid (s : State) (k : Nat) : Bool := (s.outSlot k).isSome

/-- An operation runs (R24). -/
def State.isBusy (s : State) : Bool := s.status.state == .busy

/-! ### How an operation ends -/

/-- The `ERR` code of an error (R200). -/
def CoreError.code : CoreError → ErrCode
  | .lengthError _ => .lengthError
  | .illegalOp => .illegalOp
  | .invalidElement _ => .invalidElement

/-- What `EXPECTED` records: the expected length on LENGTH_ERROR, otherwise 0 (R203). -/
def CoreError.expected : CoreError → BitVec 8
  | .lengthError n => BitVec.ofNat 8 n
  | _ => 0

/-- What `ERR_INDEX` records: the lowest invalid slot on INVALID_ELEMENT, otherwise 0 (R203). -/
def CoreError.index : CoreError → BitVec 8
  | .invalidElement k => BitVec.ofNat 8 k
  | _ => 0

/-- `raise E(info)`: the running operation ends with an error (R203). `LAST_OP` and every slot stay. -/
def raiseError (e : CoreError) (s : State) : State :=
  { s with
    status := { state := .error, err := e.code, expected := e.expected, errIndex := e.index,
                lastOp := s.status.lastOp }
    outLen := 0 }

/-- `complete DONE with COUNT = n`, `n` the number of results (R206). -/
def complete (results : List Byte) (s : State) : State :=
  { s with
    status := { state := .done, err := .none, expected := 0, errIndex := 0, lastOp := s.status.lastOp }
    outLen := BitVec.ofNat 8 results.length
    mem := s.mem.writeList (outAddr 0) results }

/-! ### The command write -/

/-- What a write of `CMD` does before `Dispatch` runs (R71). -/
def startCommand (c : Word) (s : State) : State :=
  { s with
    lcmd := c
    status := { state := .busy, err := .none, expected := 0, errIndex := 0, lastOp := opField c }
    outLen := 0
    mem := s.mem.dropOut }

/-! ### The host's accesses -/

/-- The offset is an `IN` slot's (R54). -/
def isInOffset (off : Nat) : Bool := decide (0x100 ≤ off) && decide (off < 0x200)

/-- The offset is an `OUT` slot's (R54). -/
def isOutOffset (off : Nat) : Bool := decide (0x200 ≤ off) && decide (off < 0x300)

/-- Read the `IN` slot at a window offset. A slot nothing has written returns a free value (U10; log entry 4). -/
def readInSlot (off : Nat) (s : State) : State :=
  match s.mem.read off with
  | some b => { s with reply := .byte b }
  | none => { s with reply := .byte (Config.unwrittenIn s.freeReads), freeReads := s.freeReads + 1 }

/-- `HostRead(off, n)` (R54 to R56, R210(a), (d)). A read changes nothing a host can see. -/
def hostRead (off n : Nat) (s : State) : Host.Outcome State Fault Refusal :=
  if off = 0x004 ∧ n = 4 then .next { s with reply := .word s.status.pack }
  else if off = 0x008 ∧ n = 4 then .next { s with reply := .word (packOutLen s.outLen) }
  else if isInOffset off ∧ n = 1 then .next (readInSlot off s)
  else if isOutOffset off ∧ n = 1 then
    match s.mem.read off with
    | some b => .next { s with reply := .byte b }
    | none => .fault (.hostProtocol (.invalidResultRead (off - 0x200)))
  else .fault (.hostProtocol (.accessNotAdmitted off n))

/-- `HostWrite(off, n, v)` (R54 to R56, R71, R210(a), (b), (c)). -/
def hostWrite (off n : Nat) (v : Word) (s : State) : Host.Outcome State Fault Refusal :=
  if off = 0x000 ∧ n = 4 then
    if s.isBusy then .fault (.hostProtocol .commandWhileBusy) else .next (startCommand v s)
  else if isInOffset off ∧ n = 1 then
    if s.isBusy then .fault (.hostProtocol (.operandWriteWhileBusy (off - 0x100)))
    else .next { s with mem := s.mem.write off (v.extractLsb' 0 8) }
  else .fault (.hostProtocol (.accessNotAdmitted off n))

/-- One access by a host. -/
def hostAccess (a : HostAccess) (s : State) : Host.Outcome State Fault Refusal :=
  match a with
  | .read off n => hostRead off n s
  | .write off n v => hostWrite off n v s

/-! ### Reset -/

/-- The reset input (R38, R39, R230): the core's state becomes the state after reset, and an operation that ran is
abandoned. The model's own fields (what is still to come, what was read, the counters of the free values) are
not the core's, and stay. -/
def applyReset (s : State) : State :=
  { State.reset with agenda := s.agenda, reply := s.reply, freeReads := s.freeReads, retired := s.retired }

end Sys2Proof.Machine
end

