-- ==== Sys2Proof/Machine/Operands.lean ====
section
/-! DEFINITION. Machine/Operands.lean: the element encodings of spec/30_encoding.md R74 and the operand assembly every
operation shares (R75; priority: spec/60_exceptions.md R205). -/

namespace Sys2Proof.Machine

/-! ### One slot, read as an element of its kind (R74); nothing where the slot is invalid for the kind -/

/-- A symbol slot: the tryte value of the symbol. -/
def symbolOperand (b : Byte) : Option Int := letterToValue b

/-- A trit slot: 0x00, 0x01 or 0xFF, read as 0, +1 or -1. -/
def tritOperand (b : Byte) : Option Int :=
  if -1 ≤ b.toInt ∧ b.toInt ≤ 1 then some b.toInt else none

/-- A value slot: `s_8(slot)` in [-13, 13]. -/
def valueOperand (b : Byte) : Option Int :=
  if -13 ≤ b.toInt ∧ b.toInt ≤ 13 then some b.toInt else none

/-- A byte slot: every value is valid. -/
def byteOperand (b : Byte) : Option Byte := some b

/-- `trunc_8` of a trit or a tryte value: how a result slot holds it (R74). -/
def slotOfInt (v : Int) : Byte := BitVec.ofInt 8 v

/-! ### The operands of an operation -/

/-- What reading the operand slots gives: the elements, or the first slot that fails (R205). -/
inductive Fetched (α : Type) where
  | elements (xs : List α)
  /-- `in_written[k]` is clear: the fault of R210(e). -/
  | unwritten (k : Nat)
  /-- `IN[k]` is invalid for the kind: INVALID_ELEMENT (R204). -/
  | invalid (k : Nat)
  deriving DecidableEq, Repr

/-- Put an element before the elements fetched after it. -/
def Fetched.cons {α : Type} (x : α) : Fetched α → Fetched α
  | .elements xs => .elements (x :: xs)
  | .unwritten k => .unwritten k
  | .invalid k => .invalid k

/-- The validation loop of R75 over `n` slots from `IN[k]` upward: the first slot that fails decides. -/
def fetchOperands {α : Type} (element : Byte → Option α) (s : State) (k n : Nat) : Fetched α :=
  match n with
  | 0 => .elements []
  | n + 1 =>
    match s.inSlot k with
    | none => .unwritten k
    | some b =>
      match element b with
      | none => .invalid k
      | some x => (fetchOperands element s (k + 1) n).cons x

/-- `Dispatch` after the illegal-command check (R75): the length, then the operand slots in ascending order, then the
operation's own rule, `body`. -/
def runOperation {α : Type} (expected : Nat) (element : Byte → Option α) (len : Nat)
    (body : List α → State → State) (s : State) : Host.Outcome State Fault Refusal :=
  if len ≠ expected then .next (raiseError (.lengthError expected) s)
  else
    match fetchOperands element s 0 len with
    | .unwritten k => .fault (.hostProtocol (.unwrittenOperand k))
    | .invalid k => .next (raiseError (.invalidElement k) s)
    | .elements xs => .next (body xs s)

/-- The sequencer as an operation leaves it: its code, its `LEN` and its last loop index (R35; log entry 7). -/
def loadSequencer (op : BitVec 4) (len index : Nat) (s : State) : State :=
  { s with seq := { op := op, len := BitVec.ofNat 8 len, index := index } }

end Sys2Proof.Machine
end

