-- ==== Sys2Proof/Machine/ZeroLastTrit.lean ====
section
/-! DEFINITION. Machine/ZeroLastTrit.lean: the canonicalization unit and the operation ZLT
(spec/42_canonicalization.md R140, R141, R144). -/

namespace Sys2Proof.Machine

/-- `ZeroLastTritValue(v)` (R140). -/
def zeroLastTritValue (v : Int) : Int :=
  if v > 4 then v - 9 else if v < -4 then v + 9 else v

/-- `CanonInt(W)` (R141). -/
def canonInt (w : Words) : Words :=
  if isNegative w then
    if compareSigned w negHalfThree = .lt then addWords w trit243 else w
  else
    if compareSigned w halfThree = .gt then subtractWords w trit243 else w

/-- The rule of `ZLT` on checked operands: load, canonicalize, store (R144). -/
def zltBody (len : Nat) (bytes : List Byte) (s : State) : State :=
  complete (storeBytes (canonInt (loadBytes bytes)))
    (loadSequencer 0x5 len 0 { s with w := canonInt (loadBytes bytes) })

/-- `ZLT`: zero last trit on a 48-byte integer (R144). -/
def execZlt (len : Nat) (s : State) : Host.Outcome State Fault Refusal :=
  runOperation nBytes byteOperand len (zltBody len) s

end Sys2Proof.Machine
end

