-- ==== Sys2Proof/Machine/Encoder.lean ====
section
/-! DEFINITION. Machine/Encoder.lean: the radix-27 Horner encoder and the operations T2B and TR2B
(spec/43_encoder.md R150 to R157). -/

namespace Sys2Proof.Machine

/-- The tryte-value buffer from a list of values, tryte 0 first (R31). -/
def tryteBuffer (vs : List Int) : Vector Int 81 := Vector.ofFn (fun i => vs.getD i.val 0)

/-- The trit front end: 3 trits a tryte, least significant first (R152). -/
def combineTrits : List Int → List Int
  | t0 :: t1 :: t2 :: rest => tritTripleToValue t0 t1 t2 :: combineTrits rest
  | _ => []

/-- The loop of R153(c) over the digits in the order they are used, most significant first: the accumulator and its
NZ bound. -/
def hornerLoop : List Int → Words × Nat → Words × Nat
  | [], acc => acc
  | v :: vs, acc =>
    let m := mulRadix acc.1 acc.2
    let a := addSmall m.1 (v + halfTryte).toNat
    hornerLoop vs (a.1, if a.2 > m.2 then a.2 else m.2)

/-- The Horner core: the biased accumulator and its NZ bound, from `V[0..80]` (R153). Irreducible, so that no proof
runs its 80 steps by accident; the kernel runs them all the same. -/
@[irreducible] def hornerCore (vs : List Int) : Words × Nat :=
  hornerLoop (vs.take 80).reverse (wordsOfInt (zeroLastTritValue (vs.getD 80 0) + topBias), 0)

/-- Bias removal (R154). -/
def removeBias (w : Words) : Words := subtractWords w halfThree

/-- The integer the encoder makes of `V[0..80]` (R153, R154). -/
def encodeValues (vs : List Int) : Words := removeBias (hornerCore vs).1

/-- Stages 2 to 4 of the encoder on a filled `V` (R150, R155). -/
def finishEncoder (vs : List Int) (s : State) : State :=
  complete (storeBytes (encodeValues vs))
    { s with v := tryteBuffer vs, w := encodeValues vs, nz := (hornerCore vs).2 }

/-- The rule of `T2B` on checked operands: the symbol front end has read each symbol as its value (R151), and the
other stages follow (R156). -/
def t2bBody (len : Nat) (vs : List Int) (s : State) : State :=
  finishEncoder vs (loadSequencer 0x1 len 0 s)

/-- `T2B`: trytes to bytes (R156). -/
def execT2b (len : Nat) (s : State) : Host.Outcome State Fault Refusal :=
  runOperation nTrytes symbolOperand len (t2bBody len) s

/-- The rule of `TR2B` on checked operands: the trit front end and the other stages (R152, R157). -/
def tr2bBody (len : Nat) (ts : List Int) (s : State) : State :=
  finishEncoder (combineTrits ts) (loadSequencer 0x2 len 0 s)

/-- `TR2B`: trits to bytes (R157). -/
def execTr2b (len : Nat) (s : State) : Host.Outcome State Fault Refusal :=
  runOperation nTrits tritOperand len (tr2bBody len) s

end Sys2Proof.Machine
end

