-- ==== Sys2Proof/Machine/Lookup.lean ====
section
/-! DEFINITION. Machine/Lookup.lean: the lookup operations L2V, V2L, V2TR and TR2V
(spec/40_lookup_rom.md R105 to R108). -/

namespace Sys2Proof.Machine

/-- Element `k` of a checked operand list, as the rules write `IN[k]` (log entry 15). -/
def operandAt (xs : List Int) (k : Nat) : Int := xs.getD k 0

/-- The rule of `L2V` on its checked operand, already read as its value (R105). -/
def l2vBody (len : Nat) (xs : List Int) (s : State) : State :=
  complete [slotOfInt (operandAt xs 0)] (loadSequencer 0x6 len 0 s)

/-- `L2V`: letter to value (R105). -/
def execL2v (len : Nat) (s : State) : Host.Outcome State Fault Refusal :=
  runOperation 1 symbolOperand len (l2vBody len) s

/-- The rule of `V2L` on its checked operand (R106). -/
def v2lBody (len : Nat) (xs : List Int) (s : State) : State :=
  complete [valueToLetter (operandAt xs 0)] (loadSequencer 0x7 len 0 s)

/-- `V2L`: value to letter (R106). -/
def execV2l (len : Nat) (s : State) : Host.Outcome State Fault Refusal :=
  runOperation 1 valueOperand len (v2lBody len) s

/-- The result slots of a trit triple, least significant first (R107, R176). -/
def tritSlots (v : Int) : List Byte :=
  [slotOfInt (valueToTritTriple v).1, slotOfInt (valueToTritTriple v).2.1, slotOfInt (valueToTritTriple v).2.2]

/-- The rule of `V2TR` on its checked operand (R107). -/
def v2trBody (len : Nat) (xs : List Int) (s : State) : State :=
  complete (tritSlots (operandAt xs 0)) (loadSequencer 0x8 len 0 s)

/-- `V2TR`: value to trit triple (R107). -/
def execV2tr (len : Nat) (s : State) : Host.Outcome State Fault Refusal :=
  runOperation 1 valueOperand len (v2trBody len) s

/-- The rule of `TR2V` on its checked operands (R108). -/
def tr2vBody (len : Nat) (xs : List Int) (s : State) : State :=
  complete [slotOfInt (tritTripleToValue (operandAt xs 0) (operandAt xs 1) (operandAt xs 2))]
    (loadSequencer 0x9 len 0 s)

/-- `TR2V`: trit triple to value (R108). -/
def execTr2v (len : Nat) (s : State) : Host.Outcome State Fault Refusal :=
  runOperation 3 tritOperand len (tr2vBody len) s

end Sys2Proof.Machine
end

