-- ==== Sys2Proof/Machine/Decoder.lean ====
section
/-! DEFINITION. Machine/Decoder.lean: the radix-27 division decoder and the operations B2T and B2TR
(spec/44_decoder.md R170 to R178). (The decoder of command words is Decode.lean.) -/

namespace Sys2Proof.Machine

/-- What the division loop leaves: the balanced digits, least significant first, the working integer, the NZ bound. -/
structure DivisionLoop where
  digits : List Int
  w : Words
  nz : Nat
  deriving DecidableEq, Repr

/-- `n` division steps from `W` and `NZ` (R173). -/
def divisionLoop : Nat → Words → Nat → DivisionLoop
  | 0, w, nz => { digits := [], w := w, nz := nz }
  | n + 1, w, nz =>
    let d := divRadix w nz
    let rest := divisionLoop n d.quotient d.nz
    { rest with digits := ((d.rem : Int) - halfTryte) :: rest.digits }

/-- The working integer after stages 1 and 2: loaded, canonicalized, with the bias added (R171, R172). -/
def biasedOperand (bytes : List Byte) : Words := addWords (canonInt (loadBytes bytes)) halfThree

/-- The top tryte (R174). -/
def topTryte (w : Words) : Int := zeroLastTritValue ((u384 w : Int) - halfTryte)

/-- Stages 1 to 3: what the 80 division steps leave (R170, R173; the starting NZ: log entry 10). Irreducible, so that no proof runs the steps by
accident; the kernel runs them all the same. -/
@[irreducible] def divideOperand (bytes : List Byte) : DivisionLoop :=
  divisionLoop 80 (biasedOperand bytes) (highestNonzero (biasedOperand bytes))

/-- `V[0..80]` as the decoder fills it (R173, R174). -/
def decodeValues (bytes : List Byte) : List Int :=
  (divideOperand bytes).digits ++ [topTryte (divideOperand bytes).w]

/-- The datapath as the decoder leaves it (R171 to R174). -/
def runDecoder (bytes : List Byte) (s : State) : State :=
  { s with
    v := tryteBuffer (decodeValues bytes)
    w := (divideOperand bytes).w
    nz := (divideOperand bytes).nz }

/-- The rule of `B2T` on checked operands, with the symbol back end (R175, R177). -/
def b2tBody (len : Nat) (bytes : List Byte) (s : State) : State :=
  complete ((decodeValues bytes).map valueToLetter) (runDecoder bytes (loadSequencer 0x3 len 80 s))

/-- `B2T`: bytes to trytes (R177). -/
def execB2t (len : Nat) (s : State) : Host.Outcome State Fault Refusal :=
  runOperation nBytes byteOperand len (b2tBody len) s

/-- The rule of `B2TR` on checked operands, with the trit back end (R176, R178). -/
def b2trBody (len : Nat) (bytes : List Byte) (s : State) : State :=
  complete ((decodeValues bytes).flatMap tritSlots) (runDecoder bytes (loadSequencer 0x4 len 242 s))

/-- `B2TR`: bytes to trits (R178). -/
def execB2tr (len : Nat) (s : State) : Host.Outcome State Fault Refusal :=
  runOperation nBytes byteOperand len (b2trBody len) s

end Sys2Proof.Machine
end

