-- ==== Sys2Proof/Machine/Dispatch.lean ====
section
/-! DEFINITION. Machine/Dispatch.lean: one arm per operation (spec/30_encoding.md R72, R75). -/

namespace Sys2Proof.Machine

/-- Run the operation of the latched command (R75), after the command write of R71 and the illegal-command check. -/
def exec (i : Instr) (s : State) : Host.Outcome State Fault Refusal :=
  match i with
  | .t2b len => Sys2Proof.Machine.execT2b len s
  | .tr2b len => Sys2Proof.Machine.execTr2b len s
  | .b2t len => Sys2Proof.Machine.execB2t len s
  | .b2tr len => Sys2Proof.Machine.execB2tr len s
  | .zlt len => Sys2Proof.Machine.execZlt len s
  | .l2v len => Sys2Proof.Machine.execL2v len s
  | .v2l len => Sys2Proof.Machine.execV2l len s
  | .v2tr len => Sys2Proof.Machine.execV2tr len s
  | .tr2v len => Sys2Proof.Machine.execTr2v len s

end Sys2Proof.Machine
end

