-- ==== Sys2Proof/Machine/Run.lean ====
section
/-! DEFINITION. Machine/Run.lean: the core's completion step and the events of a step (spec/30_encoding.md R75,
spec/70_reset_and_hazards.md R230, R234). -/

namespace Sys2Proof.Machine

/-- `Dispatch(LCMD)`: decode the latched command and run it; an illegal word ends with ILLEGAL_OP (R75, R202). -/
def dispatch (s : State) : Host.Outcome State Fault Refusal :=
  match decode s.lcmd with
  | .ok i => exec i s
  | .error _ => .next (raiseError .illegalOp s)

/-- What the end of an operation makes of the hidden state: dead, any value (R37, U15; log entry 6). -/
def forgetHidden (s : State) : State :=
  { s with
    lcmd := Config.deadLcmd s.retired
    v := Vector.ofFn (fun i => ((Config.deadDigit s.retired i).val : Int) - 13)
    w := Config.deadW s.retired
    nz := (Config.deadNz s.retired).val
    seq := { op := Config.deadSeqOp s.retired, len := Config.deadSeqLen s.retired,
             index := (Config.deadSeqIndex s.retired).val }
    retired := s.retired + 1 }

/-- The end of an operation, after its own effects. -/
def retire (o : Host.Outcome State Fault Refusal) : Host.Outcome State Fault Refusal :=
  match o with
  | .next t => .next (forgetHidden t)
  | .fault r => .fault r
  | .refused r => .refused r

/-- The latched command, from `Dispatch` to the end of its operation. -/
def runCommand (s : State) : Host.Outcome State Fault Refusal := retire (dispatch s)

/-- The core moves: a BUSY core runs its operation to completion, as one atomic step (R59, R234; log entry 9); between operations
the core holds its state (R216). -/
def coreMove (s : State) : Host.Outcome State Fault Refusal :=
  if s.isBusy then runCommand s else .next s

/-- One event at the core. -/
def handleEvent (e : Event) (s : State) : Host.Outcome State Fault Refusal :=
  match e with
  | .host a => hostAccess a s
  | .coreRun => coreMove s
  | .reset => .next (applyReset s)

/-- The next event of the agenda; when none is left only the core can move (log entry 1). -/
def nextEvent (s : State) : Host.Outcome State Fault Refusal :=
  match s.agenda with
  | [] => coreMove s
  | e :: rest => handleEvent e { s with agenda := rest }

/-- The state a host's write of the command `c` leaves, with the core's move next (log entry 3). -/
def loadCommand (c : Word) (s : State) : State :=
  startCommand c { s with agenda := .coreRun :: s.agenda }

end Sys2Proof.Machine
end

