-- ==== Sys2Proof/Machine/Step.lean ====
section
/-! DEFINITION. Machine/Step.lean: one step of the machine, and where it takes its next instruction from. -/

namespace Sys2Proof.Machine

/-- One step: the next event of the agenda. The agenda is any merge of the hosts' accesses, the core's moves and the
platform's resets (R20, R59, R230, R234), so every state's agenda is one interleaving and a statement about every
state is one about every interleaving. -/
def step (s : State) : Host.Outcome State Fault Refusal := nextEvent s

/-- The state in which the next step runs the command whose bits are `w`: the core fetches no instructions (R22), it
takes its command from `LCMD`, so the word stands there, latched by the command write of R71, with the core's move
next (log entry 3). -/
def State.withFetchWord (s : State) (nbits w : Nat) : State :=
  loadCommand (BitVec.ofNat 32 (w % 2 ^ nbits)) s

end Sys2Proof.Machine
end

