-- ==== Sys2Proof/Machine/Platform.lean ====
section
/-! DEFINITION. Machine/Platform.lean: a platform of several independent cores and the place of each core's window
(spec/60_exceptions.md R214, R221; spec/20_memory.md R50, R57). The core itself is Machine/Step.lean; nothing there
depends on this file (log entry 13). -/

namespace Sys2Proof.Machine

/-- The cores of a platform, each with its own window, registers, buffers and datapath (R221). The free values of
Config are the same for every core: DESIGN CHOICE, unsafe for a statement that compares those of two cores (log
entry 13). -/
structure Platform where
  cores : List State
  deriving DecidableEq, Repr

/-- The platform after reset: `NUM_INSTANCES` cores, each as R38 says. -/
def Platform.reset : Platform := { cores := List.replicate Config.numInstances State.reset }

/-- Core `k` of the platform makes a step of its own; the others keep their state (R221). A host-protocol fault of core
`k` (R210) ends the run of the whole platform, the other cores' too: DESIGN CHOICE, safe (log entries 13 and 16), since
R210 keeps the fault for the rest of the run and the spec does not say whose run. -/
def Platform.stepCore (k : Nat) (p : Platform) : Host.Outcome Platform Fault Refusal :=
  match p.cores[k]? with
  | none => .next p
  | some s =>
    match step s with
    | .next t => .next { cores := p.cores.set k t }
    | .fault r => .fault r
    | .refused r => .refused r

/-- The offset in core `k`'s register window of a platform address, if the address lies in that window (R57). -/
def windowOffset (k addr : Nat) : Option Nat :=
  if Config.coreBase k ≤ addr ∧ addr < Config.coreBase k + 0x300 then some (addr - Config.coreBase k) else none

end Sys2Proof.Machine
end

