-- ==== Sys2Proof/Safety.lean ====
section
/-! DEFINITION. Safety.lean: the terms the claims use: the values that operands and results denote, in the spec's own
arithmetic (none of it shared with the machine), how an operation ends, what host misuse is, and the invariant of the
machine. -/

namespace Sys2Proof.Safety

open Sys2Proof.Machine

/-! ### The operations' table (spec/30_encoding.md R72) -/

/-- `EXP`: the operand length an operation expects (R72, R201). -/
def expectedLen : Instr → Nat
  | .t2b _ => 81
  | .tr2b _ => 243
  | .b2t _ => 48
  | .b2tr _ => 48
  | .zlt _ => 48
  | .l2v _ => 1
  | .v2l _ => 1
  | .v2tr _ => 1
  | .tr2v _ => 3

/-- `COUNT`: how many results an operation writes on DONE (R72). -/
def resultCount : Instr → Nat
  | .t2b _ => 48
  | .tr2b _ => 48
  | .b2t _ => 81
  | .b2tr _ => 243
  | .zlt _ => 48
  | .l2v _ => 1
  | .v2l _ => 1
  | .v2tr _ => 3
  | .tr2v _ => 1

/-! ### The element kinds (R74), by the slot's value -/

/-- A symbol code: 0x39 or 0x41 to 0x5A. -/
def SymbolCode (b : Byte) : Prop := b.toNat = 0x39 ∨ (0x41 ≤ b.toNat ∧ b.toNat ≤ 0x5A)

/-- A trit code: 0x00, 0x01 or 0xFF. -/
def TritCode (b : Byte) : Prop := b.toNat = 0 ∨ b.toNat = 1 ∨ b.toNat = 0xFF

/-- A tryte-value code: 0x00 to 0x0D or 0xF3 to 0xFF. -/
def ValueCode (b : Byte) : Prop := b.toNat ≤ 0x0D ∨ 0xF3 ≤ b.toNat

/-- A slot that is valid for the operand kind of an operation (R72, R74). -/
def ValidFor : Instr → Byte → Prop
  | .t2b _, b => SymbolCode b
  | .tr2b _, b => TritCode b
  | .b2t _, _ => True
  | .b2tr _, _ => True
  | .zlt _, _ => True
  | .l2v _, b => SymbolCode b
  | .v2l _, b => ValueCode b
  | .v2tr _, b => ValueCode b
  | .tr2v _, b => TritCode b

/-- The value of a symbol code by the closed form of R101: its place in `9ABC…Z`, less 27 past 13. -/
def symbolValue (b : Byte) : Int :=
  let idx : Int := if b.toNat = 0x39 then 0 else (b.toNat : Int) - 0x40
  if idx ≤ 13 then idx else idx - 27

/-- The symbol code of a tryte value by the closed form of R102: `ALPHABET[v mod 27]`, in ASCII. -/
def symbolOf (v : Int) : Byte :=
  if v % 27 = 0 then 0x39 else BitVec.ofNat 8 (0x40 + (v % 27).toNat)

/-! ### What sequences denote -/

/-- `bytes_to_int(b)`: slot 0 is the most significant byte (R51). -/
def bytesToNat (b : List Byte) : Nat := ∑ j ∈ Finset.range 48, (b.getD j 0).toNat * 2 ^ (8 * (47 - j))

/-- The signed reading of a 384-bit value (R9, R10). -/
def signed384 (n : Nat) : Int := if n < 2 ^ 383 then (n : Int) else (n : Int) - 2 ^ 384

/-- The signed 384-bit integer 48 bytes denote. -/
def bytesVal (b : List Byte) : Int := signed384 (bytesToNat b)

/-- `val(v)` of 81 tryte values (R13). -/
def trytesVal (v : List Int) : Int := ∑ i ∈ Finset.range 81, v.getD i 0 * 27 ^ i

/-- `val(t)` of 243 trits (R13). -/
def tritsVal (t : List Int) : Int := ∑ i ∈ Finset.range 243, t.getD i 0 * 3 ^ i

/-- `halfThree` as an integer (R121). -/
def half : Int := (3 ^ 242 - 1) / 2

/-- `CanonInt` in the signed view (R141). -/
def canonical (s : Int) : Int :=
  if s < -half then s + 3 ^ 242 else if half < s then s - 3 ^ 242 else s

/-- A trit. -/
def IsTrit (t : Int) : Prop := t = -1 ∨ t = 0 ∨ t = 1

/-- A tryte value. -/
def IsTryte (v : Int) : Prop := -13 ≤ v ∧ v ≤ 13

/-! ### How an operation ends -/

/-- The operands `bs` stand in `IN[0]` upward, every slot written (R28). -/
def Operands (s : State) (bs : List Byte) : Prop := ∀ k, k < bs.length → s.inSlot k = bs[k]?

/-- The state an error leaves: R203's registers, and nothing else changed. -/
def errorState (s : State) (err : ErrCode) (expected errIndex : BitVec 8) : State :=
  { s with
    status := { state := .error, err := err, expected := expected, errIndex := errIndex,
                lastOp := s.status.lastOp }
    outLen := 0 }

/-- Operation `i` ended DONE with these results (R206), and changed nothing the spec does not give it: no byte of the
window but `OUT[0]` to `OUT[COUNT-1]`, and no register but `STATUS`, `OUT_LEN` and the sequencer, which holds the
operation's code and its `LEN` (R35, R37). What becomes of `V`, `W` and `NZ` is said apart. -/
structure Completes (i : Instr) (s t : State) (results : List Byte) : Prop where
  status : t.status = { state := .done, err := .none, expected := 0, errIndex := 0, lastOp := s.status.lastOp }
  count : t.outLen.toNat = results.length
  tableCount : results.length = resultCount i
  written : ∀ k, k < results.length → t.mem.read (0x200 + k) = results[k]?
  frame : ∀ a, ¬ (0x200 ≤ a ∧ a < 0x200 + results.length) → t.mem.read a = s.mem.read a
  lcmd : t.lcmd = s.lcmd
  seqOp : t.seq.op = opcode i
  seqLen : t.seq.len.toNat = expectedLen i
  agenda : t.agenda = s.agenda
  reply : t.reply = s.reply
  freeReads : t.freeReads = s.freeReads
  retired : t.retired = s.retired

/-- The datapath is as it was (R37): `V`, `W` and `NZ`. -/
structure DatapathKept (s t : State) : Prop where
  v : t.v = s.v
  w : t.w = s.w
  nz : t.nz = s.nz

/-- Every word above `nz` is 0: the invariant of R33. -/
def BoundedBy (w : Words) (nz : Nat) : Prop := ∀ (j : Nat) (h : j < 12), nz < j → w[j] = 0

/-! ### Who moves next, and host misuse (R210) -/

/-- The core's move is next: the agenda says so, or nothing else is left (R234). -/
def CoreMovesNext (s : State) : Prop := s.agenda = [] ∨ ∃ rest, s.agenda = .coreRun :: rest

/-- The state with the event of this step taken off the agenda. -/
def popped (s : State) : State := { s with agenda := s.agenda.tail }

/-- The reads R54 and R55 admit. -/
def ReadAdmitted (off n : Nat) : Prop :=
  (off = 0x004 ∧ n = 4) ∨ (off = 0x008 ∧ n = 4) ∨ (0x100 ≤ off ∧ off ≤ 0x1FF ∧ n = 1) ∨
    (0x200 ≤ off ∧ off ≤ 0x2FF ∧ n = 1)

/-- The writes R54 and R55 admit. -/
def WriteAdmitted (off n : Nat) : Prop :=
  (off = 0x000 ∧ n = 4) ∨ (0x100 ≤ off ∧ off ≤ 0x1FF ∧ n = 1)

/-- Host misuse at this step, with its reason: the cases (a) to (e) of R210. -/
inductive Misuse (s : State) : ProtocolReason → Prop
  | readNotAdmitted (off n : Nat) (rest : List Event) (next : s.agenda = .host (.read off n) :: rest)
      (bad : ¬ ReadAdmitted off n) : Misuse s (.accessNotAdmitted off n)
  | writeNotAdmitted (off n : Nat) (v : Word) (rest : List Event)
      (next : s.agenda = .host (.write off n v) :: rest) (bad : ¬ WriteAdmitted off n) :
      Misuse s (.accessNotAdmitted off n)
  | commandWhileBusy (v : Word) (rest : List Event) (next : s.agenda = .host (.write 0x000 4 v) :: rest)
      (busy : s.status.state = .busy) : Misuse s .commandWhileBusy
  | operandWriteWhileBusy (k : Nat) (v : Word) (rest : List Event) (slot : k < 256)
      (next : s.agenda = .host (.write (0x100 + k) 1 v) :: rest) (busy : s.status.state = .busy) :
      Misuse s (.operandWriteWhileBusy k)
  | invalidResultRead (k : Nat) (rest : List Event) (slot : k < 256)
      (next : s.agenda = .host (.read (0x200 + k) 1) :: rest) (clear : s.outValid k = false) :
      Misuse s (.invalidResultRead k)
  | unwrittenOperand (i : Instr) (k : Nat) (next : CoreMovesNext s) (busy : s.status.state = .busy)
      (command : decode s.lcmd = .ok i) (length : i.len = expectedLen i) (reached : k < expectedLen i)
      (before : ∀ j, j < k → ∃ b, s.inSlot j = some b ∧ ValidFor i b) (clear : s.inWritten k = false) :
      Misuse s (.unwrittenOperand k)

/-! ### The invariant -/

/-- What holds of every state of a run. -/
structure Inv (s : State) : Prop where
  /-- The slots are in canonical form. -/
  memWf : s.mem.wf
  /-- Only slots of `IN` and `OUT` are listed (R54). -/
  slots : ∀ c ∈ s.mem, 0x100 ≤ c.1 ∧ c.1 < 0x300
  /-- A result slot is valid exactly after DONE and below `COUNT` (R29, R206). -/
  outValid : ∀ k, k < 256 → (s.outValid k = true ↔ s.status.state = .done ∧ k < s.outLen.toNat)
  /-- `COUNT` is 0 unless the last operation completed (R27). -/
  countZero : s.status.state ≠ .done → s.outLen = 0
  /-- `COUNT` after DONE is one of the table's (R27). -/
  countTable : s.status.state = .done → s.outLen.toNat ∈ [48, 81, 243, 1, 3]
  /-- `ERR` is NONE unless `STATE` is ERROR (R24). -/
  errNone : s.status.err = .none ↔ s.status.state ≠ .error
  /-- `EXPECTED` is 0 but on LENGTH_ERROR (R24), and there a length of the table (R201). -/
  expectedZero : s.status.err ≠ .lengthError → s.status.expected = 0
  expectedTable : s.status.err = .lengthError → s.status.expected.toNat ∈ [81, 243, 48, 1, 3]
  /-- `ERR_INDEX` is 0 but on INVALID_ELEMENT (R24). -/
  errIndexZero : s.status.err ≠ .invalidElement → s.status.errIndex = 0
  /-- `LAST_OP` is 0 before the first command, and while an operation runs the `OP` of its command (R24, R36). -/
  lastOpIdle : s.status.state = .idle → s.status.lastOp = 0
  lastOp : s.status.state = .busy → s.status.lastOp = opField s.lcmd
  /-- `NZ` is in [0, 11] (R33). -/
  nzBound : s.nz ≤ 11

/-- Every tryte value of `V` is in [-13, 13] (R31). -/
def TryteBufferInRange (s : State) : Prop := ∀ v ∈ s.v.toList, IsTryte v

/-- Two states a host cannot tell apart: all but the hidden state is the same, and the latched command is the same
while an operation runs (R31, R32, R35, R36). -/
structure SameToHost (s t : State) : Prop where
  status : s.status = t.status
  outLen : s.outLen = t.outLen
  mem : s.mem = t.mem
  agenda : s.agenda = t.agenda
  reply : s.reply = t.reply
  freeReads : s.freeReads = t.freeReads
  lcmd : s.status.state = .busy → s.lcmd = t.lcmd

/-- Two outcomes that a host cannot tell apart. -/
def SameOutcome : Host.Outcome State Fault Refusal → Host.Outcome State Fault Refusal → Prop
  | .next s, .next t => SameToHost s t
  | .fault r, .fault r' => r = r'
  | .refused r, .refused r' => r = r'
  | _, _ => False

end Sys2Proof.Safety
end

