-- ==== Sys2Proof/Certificates/Slice0/Obligations.lean ====
section
/-! DEFINITION. Certificates/Slice0/Obligations.lean: the statements for the provers. Each docstring names the rules of
spec/ it formalises, or says that it rests on a choice of the model and names the log entry. -/

open Sys2Proof Sys2Proof.Machine Sys2Proof.Safety

/-! ### Command words -/

/-- R70, R72, R76: every operation with every `LEN` a command can carry decodes from its own command word. -/
def Obligations.DecodeInvertsEncode : Prop :=
  ∀ i : Instr, i.wf = true → decode (encode i) = .ok i

/-- R70, R73: a command word that decodes is the encoding of what it decodes to, so no legal operation has a second
word and no bit of a legal word is ignored. -/
def Obligations.DecodedWordIsItsOwnEncoding : Prop :=
  ∀ (c : Word) (i : Instr), decode c = .ok i → i.wf = true ∧ encode i = c

/-- R73: the decoder rejects exactly the command words the rule calls illegal. -/
def Obligations.DecoderRejectsExactlyIllegalWords : Prop :=
  ∀ c : Word,
    (∃ e, decode c = .error e) ↔
      (c.toNat % 16 = 0 ∨ 0xA ≤ c.toNat % 16 ∨ c.toNat / 16 % 16 ≠ 0 ∨ c.toNat / 65536 ≠ 0)

/-- R72: the nine command words the operation rules write out. -/
def Obligations.TableWordsDecodeToTheirOperations : Prop :=
  decode 0x00005101 = .ok (.t2b 81) ∧ decode 0x0000F302 = .ok (.tr2b 243) ∧
  decode 0x00003003 = .ok (.b2t 48) ∧ decode 0x00003004 = .ok (.b2tr 48) ∧
  decode 0x00003005 = .ok (.zlt 48) ∧ decode 0x00000106 = .ok (.l2v 1) ∧
  decode 0x00000107 = .ok (.v2l 1) ∧ decode 0x00000108 = .ok (.v2tr 1) ∧
  decode 0x00000309 = .ok (.tr2v 3)

/-! ### Steps -/

/-- R75: a BUSY core whose move is next runs the operation its latched command decodes to, on the state with that
event taken off the agenda (the agenda is the model's own, log entry 1). Around the meaning, a step forgets the hidden
state (log entry 6), which leaves all that a host can see. -/
def Obligations.StepRunsTheLatchedCommand : Prop :=
  ∀ (s : State) (i : Instr), s.status.state = .busy → CoreMovesNext s → decode s.lcmd = .ok i →
    step s = retire (exec i (popped s)) ∧
    (∀ t, exec i (popped s) = .next t →
      step s = .next (forgetHidden t) ∧ SameToHost (forgetHidden t) t) ∧
    (∀ r, exec i (popped s) = .fault r → step s = .fault r)

/-- R202: an illegal command ends with ILLEGAL_OP, `EXPECTED` and `ERR_INDEX` stay 0, and nothing else that a host can
see changes. -/
def Obligations.IllegalCommandEndsWithIllegalOp : Prop :=
  ∀ s : State, s.status.state = .busy → CoreMovesNext s →
    (s.lcmd.toNat % 16 = 0 ∨ 0xA ≤ s.lcmd.toNat % 16 ∨ s.lcmd.toNat / 16 % 16 ≠ 0 ∨ s.lcmd.toNat / 65536 ≠ 0) →
    ∃ t, step s = .next t ∧ SameToHost t (errorState (popped s) .illegalOp 0 0)

/-- R210: a step faults exactly on the host misuse the rule lists, with that reason; no step refuses. Which reason an
access has that the rule lists twice is the model's choice, log entry 16 (DEDUCED): the wrong shape, case (a), has
priority over (b), (c) and (d), so that a 1-byte write at 0x000 while BUSY is `accessNotAdmitted`. -/
def Obligations.StepFaultsExactlyOnHostMisuse : Prop :=
  (∀ (s : State) (r : ProtocolReason), step s = .fault (.hostProtocol r) ↔ Misuse s r) ∧
  (∀ (s : State) (r : Refusal), step s ≠ .refused r)

/-- R234 (weak fairness): when the agenda has run out and the core has made one move more, no operation is left
running, unless host misuse stopped the run. The agenda is the model's own (log entry 1). -/
def Obligations.EveryOperationEndsWithTheAgenda : Prop :=
  ∀ s : State,
    match Host.Core.run Sys2Proof.core (s.agenda.length + 1) s with
    | .next t => t.agenda = [] ∧ t.status.state ≠ .busy
    | .fault r => ∃ k u reason, k ≤ s.agenda.length ∧ Host.Core.run Sys2Proof.core k s = .next u ∧
        r = .hostProtocol reason ∧ Misuse u reason
    | .refused _ => False

/-- R216: between operations a core that nobody accesses holds all of its state. -/
def Obligations.CoreHoldsItsStateBetweenOperations : Prop :=
  ∀ s : State, s.status.state ≠ .busy → CoreMovesNext s → step s = .next (popped s)

/-! ### Reset -/

/-- R38: the value after reset of every piece of state the rule gives one. -/
def Obligations.ResetLeavesTheSpecifiedValues : Prop :=
  State.reset.status.state = .idle ∧ State.reset.status.err = .none ∧ State.reset.status.expected = 0 ∧
  State.reset.status.errIndex = 0 ∧ State.reset.status.lastOp = 0 ∧ State.reset.status.pack = 0 ∧
  packOutLen State.reset.outLen = 0 ∧
  (∀ k, State.reset.inWritten k = false) ∧ (∀ k, State.reset.outValid k = false)

/-- R39: a reset, also one that arrives while an operation runs, leaves the state after reset and no trace of the
operation; the model's own fields stay (log entries 1, 4 and 6). -/
def Obligations.ResetAbandonsARunningOperation : Prop :=
  ∀ (s : State) (rest : List Event), s.agenda = .reset :: rest →
    step s = .next { State.reset with
      agenda := rest, reply := s.reply, freeReads := s.freeReads, retired := s.retired }

/-! ### Invariants -/

/-- R24, R27, R29, R33, R54: every step from a state that meets the invariant leaves one that does. When an operation
ends the clause on `NZ` is the range of the free value of log entry 6; that the operations themselves keep it is
`OperationsKeepTheDatapathInRange`. -/
def Obligations.StepKeepsTheInvariant : Prop :=
  ∀ s t : State, Inv s → step s = .next t → Inv t

/-- R38: the state after reset meets the invariant. The clause NZ <= 11 (R33) is the model's choice there and not the
spec's, which calls NZ unspecified: NZ is 0 after reset by log entry 5. -/
def Obligations.ResetMeetsTheInvariant : Prop := Inv State.reset

/-- R31, R33: every operation, whatever its operands and its `LEN`, keeps the tryte values of `V` in [-13, 13] and `NZ`
in [0, 11]: what the operation itself writes there, before the step forgets it (log entry 6). The last clause says the
same of `V` over a step. -/
def Obligations.OperationsKeepTheDatapathInRange : Prop :=
  (∀ (i : Instr) (s t : State), TryteBufferInRange s → exec i s = .next t → TryteBufferInRange t) ∧
  (∀ (i : Instr) (s t : State), s.nz ≤ 11 → exec i s = .next t → t.nz ≤ 11) ∧
  (∀ s t : State, TryteBufferInRange s → step s = .next t → TryteBufferInRange t)

/-- The tryte buffer is in range after reset (its values there are the model's choice, log entry 5). -/
def Obligations.ResetTryteBufferInRange : Prop := TryteBufferInRange State.reset

/-- R31, R32, R35: the hidden state reaches no host. From two states that differ only in `V`, `W`, `NZ`, the sequencer
and, while no operation runs, `LCMD`, any number of steps gives outcomes a host cannot tell apart. -/
def Obligations.HiddenStateReachesNoHost : Prop :=
  ∀ (n : Nat) (s t : State), SameToHost s t →
    SameOutcome (Host.Core.run Sys2Proof.core n s) (Host.Core.run Sys2Proof.core n t)

/-! ### The host's accesses -/

/-- R71: a command write while not BUSY. -/
def Obligations.CommandWriteStartsAnOperation : Prop :=
  ∀ (s : State) (c : Word) (rest : List Event),
    s.agenda = .host (.write 0x000 4 c) :: rest → s.status.state ≠ .busy →
    ∃ t, step s = .next t ∧
      t.lcmd = c ∧
      t.status = { state := .busy, err := .none, expected := 0, errIndex := 0, lastOp := c.extractLsb' 0 4 } ∧
      t.outLen = 0 ∧ (∀ k, t.outValid k = false) ∧
      (∀ a, a < 0x200 → t.mem.read a = s.mem.read a) ∧
      t.v = s.v ∧ t.w = s.w ∧ t.nz = s.nz ∧ t.seq = s.seq ∧
      t.agenda = rest ∧ t.reply = s.reply ∧ t.freeReads = s.freeReads ∧ t.retired = s.retired

/-- R28, R54: a write of `IN[k]` while not BUSY stores the byte, sets `in_written[k]` and changes nothing else. That
the byte is the low one of the 32-bit value the access carries is the model's choice, log entry 11 (DEDUCED). -/
def Obligations.OperandWriteStoresTheByte : Prop :=
  ∀ (s : State) (k : Nat) (v : Word) (rest : List Event), k < 256 →
    s.agenda = .host (.write (0x100 + k) 1 v) :: rest → s.status.state ≠ .busy →
    ∃ m : Memory,
      step s = .next { s with agenda := rest, mem := m } ∧
      m.read (0x100 + k) = some (BitVec.ofNat 8 v.toNat) ∧
      (∀ a, a ≠ 0x100 + k → m.read a = s.mem.read a) ∧ (s.mem.wf → m.wf)

/-- R23, R24, R27, R54, R56, R200: in every state a read of `STATUS` and one of `OUT_LEN` return their fields at their
places, `STATE` and `ERR` by the codes of the two rules' tables, the reserved bits 0, and change nothing the core
holds. -/
def Obligations.RegisterReadsReturnTheFields : Prop :=
  ∀ (s : State) (rest : List Event),
    (s.agenda = .host (.read 0x004 4) :: rest →
      ∃ x : Word, step s = .next { s with agenda := rest, reply := .word x } ∧
        (s.status.state = .idle → x.extractLsb' 0 2 = 0) ∧ (s.status.state = .busy → x.extractLsb' 0 2 = 1) ∧
        (s.status.state = .done → x.extractLsb' 0 2 = 2) ∧ (s.status.state = .error → x.extractLsb' 0 2 = 3) ∧
        x.extractLsb' 2 2 = 0 ∧
        (s.status.err = .none → x.extractLsb' 4 2 = 0) ∧ (s.status.err = .lengthError → x.extractLsb' 4 2 = 1) ∧
        (s.status.err = .illegalOp → x.extractLsb' 4 2 = 2) ∧
        (s.status.err = .invalidElement → x.extractLsb' 4 2 = 3) ∧
        x.extractLsb' 6 2 = 0 ∧
        x.extractLsb' 8 8 = s.status.expected ∧ x.extractLsb' 16 8 = s.status.errIndex ∧
        x.extractLsb' 24 4 = s.status.lastOp ∧ x.extractLsb' 28 4 = 0) ∧
    (s.agenda = .host (.read 0x008 4) :: rest →
      ∃ x : Word, step s = .next { s with agenda := rest, reply := .word x } ∧
        x.extractLsb' 0 8 = s.outLen ∧ x.extractLsb' 8 24 = 0)

/-- R28, R29, R54, R56: a read of a written `IN` slot or of a valid `OUT` slot returns its byte and changes nothing
the core holds. -/
def Obligations.SlotReadsReturnTheByte : Prop :=
  ∀ (s : State) (k : Nat) (rest : List Event), k < 256 →
    (∀ b, s.agenda = .host (.read (0x100 + k) 1) :: rest → s.inSlot k = some b →
      step s = .next { s with agenda := rest, reply := .byte b }) ∧
    (∀ b, s.agenda = .host (.read (0x200 + k) 1) :: rest → s.outSlot k = some b →
      step s = .next { s with agenda := rest, reply := .byte b })

/-- U10 of spec/93_implementation_defined.md (the spec's `any value`): a read of an `IN` slot that nothing has written
goes on, and what it returns is the free value of log entry 4, a fresh one at each such read. -/
def Obligations.UnwrittenSlotReadReturnsAnyValue : Prop :=
  ∀ (s : State) (k : Nat) (rest : List Event), k < 256 →
    s.agenda = .host (.read (0x100 + k) 1) :: rest → s.inWritten k = false →
    step s = .next { s with
      agenda := rest, reply := .byte (Config.unwrittenIn s.freeReads), freeReads := s.freeReads + 1 }

/-- R59(b), R210: while an operation runs `STATUS.STATE` reads BUSY with no error, `OUT_LEN` reads 0 and no result
slot is valid. -/
def Obligations.RunningOperationShowsNothing : Prop :=
  ∀ s : State, Inv s → s.status.state = .busy →
    (∃ t x, step { s with agenda := .host (.read 0x004 4) :: s.agenda } = .next t ∧ t.reply = .word x ∧
      x.extractLsb' 0 2 = 1 ∧ x.extractLsb' 4 2 = 0) ∧
    (∃ t, step { s with agenda := .host (.read 0x008 4) :: s.agenda } = .next t ∧ t.reply = .word 0) ∧
    (∀ k, s.outValid k = false) ∧
    (∀ k, k < 256 → step { s with agenda := .host (.read (0x200 + k) 1) :: s.agenda } =
      .fault (.hostProtocol (.invalidResultRead k)))

/-! ### The checks every operation shares -/

/-- R201, R203: a wrong length ends with LENGTH_ERROR before any slot is read, `EXPECTED` holding the operation's
length, and nothing else that a host can see changes. That `V`, `W`, `NZ`, which R203 calls dead, and the whole
sequencer stay as well is the model's choice, log entry 7, until the step forgets them (log entry 6). -/
def Obligations.WrongLengthEndsWithLengthError : Prop :=
  ∀ (i : Instr) (s : State), i.len ≠ expectedLen i →
    exec i s = .next (errorState s .lengthError (BitVec.ofNat 8 (expectedLen i)) 0)

/-- R204, R205: with the right length, the first slot that is not valid for the operation's kind, all slots before it
written and valid, ends the operation with INVALID_ELEMENT and its index, and nothing else that a host can see changes
(R203). That `V`, `W`, `NZ`, which R203 calls dead, and the whole sequencer stay as well is the model's choice, log
entry 7, until the step forgets them (log entry 6). -/
def Obligations.FirstInvalidSlotEndsWithInvalidElement : Prop :=
  ∀ (i : Instr) (s : State) (k : Nat) (b : Byte), i.len = expectedLen i → k < expectedLen i →
    (∀ j, j < k → ∃ c, s.inSlot j = some c ∧ ValidFor i c) → s.inSlot k = some b → ¬ ValidFor i b →
    exec i s = .next (errorState s .invalidElement 0 (BitVec.ofNat 8 k))

/-- R205, R210(e): with the right length, the first slot that fails being an unwritten one is the fault of R210(e). -/
def Obligations.FirstUnwrittenSlotFaults : Prop :=
  ∀ (i : Instr) (s : State) (k : Nat), i.len = expectedLen i → k < expectedLen i →
    (∀ j, j < k → ∃ c, s.inSlot j = some c ∧ ValidFor i c) → s.inWritten k = false →
    exec i s = .fault (.hostProtocol (.unwrittenOperand k))

/-- R28, R36: an operation reads no slot but `IN[0]` to `IN[LEN-1]`: on two states that agree there it ends alike, with
the same results. -/
def Obligations.OperationReadsOnlyItsOperands : Prop :=
  ∀ (i : Instr) (s t : State), (∀ k, k < i.len → s.inSlot k = t.inSlot k) → s.status.lastOp = t.status.lastOp →
    match exec i s, exec i t with
    | .next s', .next t' =>
      s'.status = t'.status ∧ s'.outLen = t'.outLen ∧
        (∀ k, k < s'.outLen.toNat → s'.outSlot k = t'.outSlot k)
    | .fault r, .fault r' => r = r'
    | _, _ => False

/-! ### The operations -/

/-- R105: `L2V` on every symbol code. -/
def Obligations.LetterToValueCompletes : Prop :=
  ∀ (s : State) (b : Byte), s.inSlot 0 = some b → SymbolCode b →
    ∃ t, exec (.l2v 1) s = .next t ∧
      Completes (.l2v 1) s t [BitVec.ofInt 8 (symbolValue b)] ∧ DatapathKept s t

/-- R106: `V2L` on every tryte-value code. -/
def Obligations.ValueToLetterCompletes : Prop :=
  ∀ (s : State) (b : Byte), s.inSlot 0 = some b → ValueCode b →
    ∃ t, exec (.v2l 1) s = .next t ∧ Completes (.v2l 1) s t [symbolOf b.toInt] ∧ DatapathKept s t

/-- R107: `V2TR` on every tryte-value code: the three trits of the value, least significant first. -/
def Obligations.ValueToTritTripleCompletes : Prop :=
  ∀ (s : State) (b : Byte), s.inSlot 0 = some b → ValueCode b →
    ∃ t t0 t1 t2, exec (.v2tr 1) s = .next t ∧
      IsTrit t0 ∧ IsTrit t1 ∧ IsTrit t2 ∧ t0 + 3 * t1 + 9 * t2 = b.toInt ∧
      Completes (.v2tr 1) s t [BitVec.ofInt 8 t0, BitVec.ofInt 8 t1, BitVec.ofInt 8 t2] ∧ DatapathKept s t

/-- R108: `TR2V` on every triple of trit codes. -/
def Obligations.TritTripleToValueCompletes : Prop :=
  ∀ (s : State) (b0 b1 b2 : Byte), Operands s [b0, b1, b2] → TritCode b0 → TritCode b1 → TritCode b2 →
    ∃ t, exec (.tr2v 3) s = .next t ∧
      Completes (.tr2v 3) s t [BitVec.ofInt 8 (b0.toInt + 3 * b1.toInt + 9 * b2.toInt)] ∧ DatapathKept s t

/-- R144: `ZLT` on every 48 bytes: the result is the operand canonicalized (R141, signed view), and of the datapath
`W` alone is written, with the canonical value. -/
def Obligations.ZeroLastTritCompletes : Prop :=
  ∀ (s : State) (bs : List Byte), bs.length = 48 → Operands s bs →
    ∃ t rs, exec (.zlt 48) s = .next t ∧ Completes (.zlt 48) s t rs ∧
      bytesVal rs = canonical (bytesVal bs) ∧
      t.v = s.v ∧ t.nz = s.nz ∧ s384 t.w = bytesVal rs

/-- R156, R159: `T2B` on every 81 symbol codes: the result is the value of the trytes with the top one canonicalized;
`V` holds the trytes (R151), `W` the result. -/
def Obligations.TrytesToBytesCompletes : Prop :=
  ∀ (s : State) (bs : List Byte), bs.length = 81 → Operands s bs → (∀ b ∈ bs, SymbolCode b) →
    ∃ t rs, exec (.t2b 81) s = .next t ∧ Completes (.t2b 81) s t rs ∧
      bytesVal rs = trytesVal ((bs.map symbolValue).set 80 (zeroLastTritValue (symbolValue (bs.getD 80 0)))) ∧
      t.v.toList = bs.map symbolValue ∧ s384 t.w = bytesVal rs

/-- R157, R159: `TR2B` on every 243 trit codes: the result is the value of the trits with trit 242 taken as 0; each
`V[i]` holds the tryte value of trits 3i, 3i + 1 and 3i + 2 (R152), `W` the result. -/
def Obligations.TritsToBytesCompletes : Prop :=
  ∀ (s : State) (bs : List Byte), bs.length = 243 → Operands s bs → (∀ b ∈ bs, TritCode b) →
    ∃ t rs, exec (.tr2b 243) s = .next t ∧ Completes (.tr2b 243) s t rs ∧
      bytesVal rs = tritsVal ((bs.map BitVec.toInt).set 242 0) ∧
      (∀ (i : Nat) (h : i < 81), t.v[i] = (bs.getD (3 * i) 0).toInt + 3 * (bs.getD (3 * i + 1) 0).toInt
        + 9 * (bs.getD (3 * i + 2) 0).toInt) ∧
      trytesVal t.v.toList = tritsVal (bs.map BitVec.toInt) ∧ s384 t.w = bytesVal rs

/-- R177, R179: `B2T` on every 48 bytes: the symbols are those of the one sequence of tryte values, the top one in
[-4, 4], whose value is the canonicalized operand; `V` holds that sequence. -/
def Obligations.BytesToTrytesCompletes : Prop :=
  ∀ (s : State) (bs : List Byte), bs.length = 48 → Operands s bs →
    ∃ t vs, exec (.b2t 48) s = .next t ∧ Completes (.b2t 48) s t (vs.map symbolOf) ∧
      vs.length = 81 ∧ (∀ v ∈ vs, IsTryte v) ∧ -4 ≤ vs.getD 80 0 ∧ vs.getD 80 0 ≤ 4 ∧
      trytesVal vs = canonical (bytesVal bs) ∧ t.v.toList = vs

/-- R178, R179: `B2TR` on every 48 bytes: the results are the 243 trits, trit 242 being 0, whose value is the
canonicalized operand; each `V[i]` is the tryte value of trits 3i, 3i + 1 and 3i + 2, and `V` is what `B2T` leaves on the
same operand (R173, R174). -/
def Obligations.BytesToTritsCompletes : Prop :=
  ∀ (s : State) (bs : List Byte), bs.length = 48 → Operands s bs →
    ∃ t ts, exec (.b2tr 48) s = .next t ∧ Completes (.b2tr 48) s t (ts.map (BitVec.ofInt 8)) ∧
      ts.length = 243 ∧ (∀ x ∈ ts, IsTrit x) ∧ ts.getD 242 0 = 0 ∧
      tritsVal ts = canonical (bytesVal bs) ∧ trytesVal t.v.toList = tritsVal ts ∧
      (∀ (i : Nat) (h : i < 81), t.v[i] = ts.getD (3 * i) 0 + 3 * ts.getD (3 * i + 1) 0 + 9 * ts.getD (3 * i + 2) 0) ∧
      (∃ u, exec (.b2t 48) s = .next u ∧ t.v = u.v)

/-! ### Round trips and agreement between operations -/

/-- R159: `B2T` of the 48 bytes `T2B` makes gives the symbols back, if the top tryte is in [-4, 4]. -/
def Obligations.DecodingAnEncodingReturnsTheSymbols : Prop :=
  ∀ (s s' : State) (bs rs : List Byte), bs.length = 81 → Operands s bs → (∀ b ∈ bs, SymbolCode b) →
    -4 ≤ symbolValue (bs.getD 80 0) → symbolValue (bs.getD 80 0) ≤ 4 →
    rs.length = 48 → (∃ t, exec (.t2b 81) s = .next t ∧ ∀ k, k < 48 → t.outSlot k = rs[k]?) → Operands s' rs →
    ∃ u, exec (.b2t 48) s' = .next u ∧ u.status.state = .done ∧ ∀ k, k < 81 → u.outSlot k = bs[k]?

/-- R179: `T2B` of the 81 symbols `B2T` makes of a 48-byte operand gives the bytes `ZLT` makes of that operand; and
R159: these are the operand itself where it is canonical. -/
def Obligations.EncodingADecodingCanonicalizes : Prop :=
  ∀ (s s' : State) (bs ss : List Byte), bs.length = 48 → Operands s bs → ss.length = 81 →
    (∃ t, exec (.b2t 48) s = .next t ∧ ∀ k, k < 81 → t.outSlot k = ss[k]?) → Operands s' ss →
    ∃ u z, exec (.t2b 81) s' = .next u ∧ u.status.state = .done ∧
      exec (.zlt 48) s = .next z ∧ z.status.state = .done ∧
      (∀ k, k < 48 → u.outSlot k = z.outSlot k) ∧
      (-half ≤ bytesVal bs → bytesVal bs ≤ half → ∀ k, k < 48 → u.outSlot k = bs[k]?)

/-- R109, R152, R157: `TR2B` on the trit expansion of 81 symbols gives the bytes `T2B` gives on the symbols. -/
def Obligations.TritAndTryteEncodersAgree : Prop :=
  ∀ (s s' : State) (bs ts : List Byte), bs.length = 81 → Operands s bs → (∀ b ∈ bs, SymbolCode b) →
    ts.length = 243 → Operands s' ts → (∀ b ∈ ts, TritCode b) →
    (∀ i, i < 81 → (ts.getD (3 * i) 0).toInt + 3 * (ts.getD (3 * i + 1) 0).toInt
      + 9 * (ts.getD (3 * i + 2) 0).toInt = symbolValue (bs.getD i 0)) →
    ∃ t t', exec (.t2b 81) s = .next t ∧ exec (.tr2b 243) s' = .next t' ∧
      t.status.state = .done ∧ t'.status.state = .done ∧ ∀ k, k < 48 → t.outSlot k = t'.outSlot k

/-- R145: every 48-byte result is canonical, trit 242 of every trit result is 0, and the top symbol of every symbol
result is one of `W X Y Z 9 A B C D`. -/
def Obligations.ResultsAreAlwaysCanonical : Prop :=
  ∀ (s t : State) (len : Nat), t.status.state = .done →
    ((exec (.t2b len) s = .next t ∨ exec (.tr2b len) s = .next t ∨ exec (.zlt len) s = .next t) →
      ∃ rs : List Byte, rs.length = 48 ∧ (∀ k, k < 48 → t.outSlot k = rs[k]?) ∧
        -half ≤ bytesVal rs ∧ bytesVal rs ≤ half) ∧
    (exec (.b2tr len) s = .next t → t.outSlot 242 = some 0x00) ∧
    (exec (.b2t len) s = .next t →
      ∃ b, t.outSlot 80 = some b ∧ b ∈ [0x57, 0x58, 0x59, 0x5A, 0x39, 0x41, 0x42, 0x43, 0x44])

/-! ### The lookup ROM -/

/-- R101: the ROM's letter-to-value function is the closed form, and total on exactly the 27 symbols. -/
def Obligations.LetterToValueIsTheClosedForm : Prop :=
  ∀ b : Byte, (SymbolCode b → letterToValue b = some (symbolValue b)) ∧ (¬ SymbolCode b → letterToValue b = none)

/-- R102, R103: the ROM's value-to-letter and value-to-triple functions are the closed forms. -/
def Obligations.ValueFunctionsAreTheClosedForms : Prop :=
  ∀ v : Int, IsTryte v →
    valueToLetter v = symbolOf v ∧
    (let bal : Int → Int := fun x => (x + 1) % 3 - 1
     let t0 := bal v
     let t1 := bal ((v - t0) / 3)
     valueToTritTriple v = (t0, t1, (v - t0 - 3 * t1) / 9))

/-- R104: the four lookup functions agree with one another. -/
def Obligations.LookupFunctionsAreMutuallyInverse : Prop :=
  (∀ t0 t1 t2 : Int, tritTripleToValue t0 t1 t2 = t0 + 3 * t1 + 9 * t2) ∧
  (∀ v : Int, IsTryte v →
    tritTripleToValue (valueToTritTriple v).1 (valueToTritTriple v).2.1 (valueToTritTriple v).2.2 = v) ∧
  (∀ b : Byte, ∀ v : Int, letterToValue b = some v → valueToLetter v = b) ∧
  (∀ v : Int, IsTryte v → letterToValue (valueToLetter v) = some v)

/-! ### The integer datapath -/

/-- R121: the three constants are the numbers the rule defines. -/
def Obligations.BiasConstantsHaveTheirDefinedValues : Prop :=
  2 * u384 halfThree + 1 = 3 ^ 242 ∧ u384 halfThree = ∑ k ∈ Finset.range 242, 3 ^ k ∧
  u384 trit243 = 3 ^ 242 ∧ u384 negHalfThree + u384 halfThree = 2 ^ 384 ∧
  s384 halfThree = half ∧ s384 negHalfThree = -half

/-- R123: both directions of the byte-order conversion, and that they invert each other. -/
def Obligations.ByteOrderConversionIsBigEndian : Prop :=
  (∀ b : List Byte, b.length = 48 → u384 (loadBytes b) = bytesToNat b ∧ storeBytes (loadBytes b) = b) ∧
  (∀ w : Words, (storeBytes w).length = 48 ∧ loadBytes (storeBytes w) = w)

/-- R124, R125: the sign test and the signed comparison. -/
def Obligations.SignTestAndCompareAreSigned : Prop :=
  (∀ w : Words, (isNegative w = true ↔ w[11].getLsbD 31 = true) ∧
    (isNegative w = true ↔ signed384 (u384 w) < 0)) ∧
  (∀ a b : Words,
    (compareSigned a b = .lt ↔ signed384 (u384 a) < signed384 (u384 b)) ∧
    (compareSigned a b = .eq ↔ signed384 (u384 a) = signed384 (u384 b)) ∧
    (compareSigned a b = .gt ↔ signed384 (u384 a) > signed384 (u384 b)))

/-- R126, R127: add and subtract modulo 2^384, in the unsigned view and (addition) in the signed view. -/
def Obligations.AddAndSubtractAreModular : Prop :=
  ∀ w k : Words,
    u384 (addWords w k) = (u384 w + u384 k) % 2 ^ 384 ∧
    (s384 (addWords w k) - (s384 w + s384 k)) % 2 ^ 384 = 0 ∧
    (u384 (subtractWords w k) : Int) = ((u384 w : Int) - u384 k) % 2 ^ 384

/-- R128: `AddSmall` adds modulo 2^384; the index it returns is at most 11, every word above it is unchanged, and the
word at it is changed where it is not 0, so that it is the highest word written. -/
def Obligations.AddSmallAddsAndBoundsItsWrites : Prop :=
  ∀ (w : Words) (n : Nat), n < 2 ^ 32 →
    u384 (addSmall w n).1 = (u384 w + n) % 2 ^ 384 ∧ (addSmall w n).2 ≤ 11 ∧
    (∀ (j : Nat) (h : j < 12), (addSmall w n).2 < j → (addSmall w n).1[j] = w[j]) ∧
    (∀ (j : Nat) (h : j < 12), 0 < j → (addSmall w n).2 = j → (addSmall w n).1[j] ≠ w[j])

/-- R129: under the NZ invariant `MulRadix` multiplies by 27 modulo 2^384 and keeps the invariant. -/
def Obligations.MulRadixMultipliesBy27 : Prop :=
  ∀ (w : Words) (nz : Nat), nz ≤ 11 → BoundedBy w nz →
    u384 (mulRadix w nz).1 = 27 * u384 w % 2 ^ 384 ∧
    BoundedBy (mulRadix w nz).1 (mulRadix w nz).2 ∧ (mulRadix w nz).2 ≤ 11

/-- R130: under the NZ invariant `DivRadix` divides by 27 and keeps the invariant. -/
def Obligations.DivRadixDividesBy27 : Prop :=
  ∀ (w : Words) (nz : Nat), nz ≤ 11 → BoundedBy w nz →
    u384 (divRadix w nz).quotient = u384 w / 27 ∧ (divRadix w nz).rem = u384 w % 27 ∧
    BoundedBy (divRadix w nz).quotient (divRadix w nz).nz ∧ (divRadix w nz).nz ≤ 11

/-- R131: under the NZ invariant the bounded steps answer what the full-width ones do. -/
def Obligations.BoundedStepsAgreeWithFullWidth : Prop :=
  ∀ (w : Words) (nz : Nat), nz ≤ 11 → BoundedBy w nz →
    (mulRadix w nz).1 = (mulRadix w 11).1 ∧ (divRadix w nz).quotient = (divRadix w 11).quotient ∧
    (divRadix w nz).rem = (divRadix w 11).rem

/-- R173 (U6 of spec/93_implementation_defined.md): the decoder's digits and what it leaves in `W` are the same for
every starting NZ from the highest nonzero word up. -/
def Obligations.StartingBoundDoesNotMatter : Prop :=
  ∀ (w : Words) (n nz : Nat), highestNonzero w ≤ nz → nz ≤ 11 →
    (divisionLoop n w nz).digits = (divisionLoop n w (highestNonzero w)).digits ∧
    (divisionLoop n w nz).w = (divisionLoop n w (highestNonzero w)).w

/-! ### Canonicalization, encoder, decoder -/

/-- R140: the tryte-level rule drops the top trit and keeps the other two. -/
def Obligations.ZeroLastTritValueDropsTheTopTrit : Prop :=
  ∀ v t0 t1 t2 : Int, IsTrit t0 → IsTrit t1 → IsTrit t2 → v = t0 + 3 * t1 + 9 * t2 →
    zeroLastTritValue v = t0 + 3 * t1 ∧ (-4 ≤ zeroLastTritValue v ∧ zeroLastTritValue v ≤ 4) ∧
    (v > 4 ↔ t2 = 1) ∧ (v < -4 ↔ t2 = -1)

/-- R141: `CanonInt` in the signed view. -/
def Obligations.CanonIntIsTheSignedRule : Prop :=
  ∀ w : Words, s384 (canonInt w) = canonical (s384 w)

/-- R143: the range of `CanonInt`, its fixed points, its idempotence, and that it keeps the value modulo 3^242. -/
def Obligations.CanonIntRangeAndFixedPoints : Prop :=
  (∀ w : Words, -half ≤ s384 (canonInt w) ∧ s384 (canonInt w) ≤ half) ∧
  (∀ w : Words, -half ≤ s384 w → s384 w ≤ half → canonInt w = w) ∧
  (∀ w : Words, canonInt (canonInt w) = canonInt w) ∧
  (∀ w : Words, s384 (canonInt w) % 3 ^ 242 = s384 w % 3 ^ 242)

/-- R142: the tryte-level and the integer-level rule agree. -/
def Obligations.TwoCanonicalizationsAgree : Prop :=
  ∀ (vs : List Int) (w : Words), vs.length = 81 → (∀ v ∈ vs, IsTryte v) → s384 w = trytesVal vs →
    trytesVal (vs.set 80 (zeroLastTritValue (vs.getD 80 0))) = s384 (canonInt w)

/-- R153, R158: what the Horner core leaves in `W`, the unbalanced radix-27 form, and its range. -/
def Obligations.HornerCoreBuildsTheBiasedSum : Prop :=
  ∀ vs : List Int, vs.length = 81 → (∀ v ∈ vs, IsTryte v) →
    (u384 (hornerCore vs).1 : Int) =
      (zeroLastTritValue (vs.getD 80 0) + 4) * 27 ^ 80 + ∑ i ∈ Finset.range 80, (vs.getD i 0 + 13) * 27 ^ i ∧
    u384 (hornerCore vs).1 ≤ 3 ^ 242 - 1

/-- R173, R174: what the division loop leaves, and the top tryte. -/
def Obligations.DivisionLoopExtractsTheDigits : Prop :=
  ∀ bs : List Byte, bs.length = 48 →
    (u384 (biasedOperand bs) : Int) = canonical (bytesVal bs) + half ∧
    (∀ i, i < 80 → (divideOperand bs).digits.getD i 0 = ((u384 (biasedOperand bs) / 27 ^ i % 27 : Nat) : Int) - 13) ∧
    u384 (divideOperand bs).w = u384 (biasedOperand bs) / 27 ^ 80 ∧
    u384 (divideOperand bs).w ≤ 8 ∧ topTryte (divideOperand bs).w = (u384 (divideOperand bs).w : Int) - 4

/-! ### Several cores -/

/-- R221: a step of one core of a platform leaves every other core as it was. It speaks of a step that gives a next
state: a host-protocol fault of one core ends the whole platform's run, which is the model's choice (log entry 13). -/
def Obligations.CoresOfAPlatformAreIndependent : Prop :=
  ∀ (p q : Platform) (k : Nat), p.stepCore k = .next q →
    q.cores.length = p.cores.length ∧ (∀ j, j ≠ k → q.cores[j]? = p.cores[j]?) ∧
    (∀ s, p.cores[k]? = some s → ∃ t, step s = .next t ∧ q.cores[k]? = some t)
end

