-- ==== Sys2Proof/Laws/Datapath.lean ====
section
/-! SUPPORT. Laws/Datapath.lean: the value of a list of words, and what each loop of the datapath does to it. -/

namespace Sys2Proof.Machine

/-! ### Words and their value -/

@[simp] theorem limbs_nil : limbs [] = 0 := rfl
@[simp] theorem limbs_cons (w : Word) (ws : List Word) : limbs (w :: ws) = w.toNat + 2 ^ 32 * limbs ws := rfl

theorem limbs_lt (l : List Word) : limbs l < 2 ^ (32 * l.length) := by
  induction l with
  | nil => simp
  | cons w ws ih =>
    have hw := w.isLt
    rw [limbs_cons, List.length_cons, Nat.mul_add, Nat.pow_add]
    have h1 : (2 : Nat) ^ 32 * limbs ws + 2 ^ 32 ≤ 2 ^ 32 * 2 ^ (32 * ws.length) := by
      rw [← Nat.mul_succ]; exact Nat.mul_le_mul_left _ ih
    rw [Nat.mul_one, Nat.mul_comm (2 ^ (32 * ws.length))]
    omega

theorem limbs_append (a b : List Word) : limbs (a ++ b) = limbs a + 2 ^ (32 * a.length) * limbs b := by
  induction a with
  | nil => simp
  | cons w ws ih =>
    rw [List.cons_append, limbs_cons, ih, limbs_cons, List.length_cons,
      show 32 * (ws.length + 1) = 32 + 32 * ws.length by ring, Nat.pow_add]
    ring

/-- Words that read alike are the same words. -/
theorem limbs_injective {a b : List Word} (hlen : a.length = b.length) (h : limbs a = limbs b) : a = b := by
  induction a generalizing b with
  | nil => exact (List.length_eq_zero_iff.1 hlen.symm).symm
  | cons x xs ih =>
    cases b with
    | nil => simp at hlen
    | cons y ys =>
      have hx := x.isLt
      have hy := y.isLt
      rw [limbs_cons, limbs_cons] at h
      have h1 : x.toNat = y.toNat := by omega
      have h2 : limbs xs = limbs ys := by omega
      rw [BitVec.eq_of_toNat_eq h1, ih (by simpa using hlen) h2]

@[simp] theorem length_toList_words (w : Words) : w.toList.length = 12 := by simp

theorem toList_wordsOfList {l : List Word} (h : l.length = 12) : (wordsOfList l).toList = l := by
  apply List.ext_getElem
  · simp [h]
  · intro i h1 h2
    simp [wordsOfList, List.getD_eq_getElem?_getD, List.getElem?_eq_getElem h2]

theorem u384_wordsOfList {l : List Word} (h : l.length = 12) : u384 (wordsOfList l) = limbs l := by
  rw [u384, toList_wordsOfList h]

theorem u384_lt (w : Words) : u384 w < 2 ^ 384 := by
  have := limbs_lt w.toList
  simpa [u384] using this

theorem words_eq_of_u384 {a b : Words} (h : u384 a = u384 b) : a = b := by
  have := limbs_injective (a := a.toList) (b := b.toList) (by simp) h
  exact Vector.toList_inj.1 this

/-- The digits of a number in radix 2^32 are its words. -/
theorem limbs_digits (n k : Nat) :
    limbs ((List.range k).map (fun j => BitVec.ofNat 32 (n / 2 ^ (32 * j)))) = n % 2 ^ (32 * k) := by
  induction k generalizing n with
  | zero => simp [Nat.mod_one]
  | succ k ih =>
    rw [List.range_succ_eq_map, List.map_cons, List.map_map, limbs_cons]
    have : (List.map ((fun j => BitVec.ofNat 32 (n / 2 ^ (32 * j))) ∘ Nat.succ) (List.range k)) =
        (List.range k).map (fun j => BitVec.ofNat 32 ((n / 2 ^ 32) / 2 ^ (32 * j))) := by
      apply List.map_congr_left
      intro j _
      simp only [Function.comp]
      rw [Nat.div_div_eq_div_mul, ← Nat.pow_add, Nat.succ_eq_add_one, show 32 * (j + 1) = 32 + 32 * j by ring]
    rw [this, ih, show 32 * (k + 1) = 32 + 32 * k by ring, Nat.pow_add, Nat.mod_mul]
    simp

/-- What `W <- v` stores (R10). -/
theorem u384_wordsOfInt (v : Int) : u384 (wordsOfInt v) = (v % 2 ^ 384).toNat := by
  have hl : (wordsOfInt v).toList =
      (List.range 12).map (fun j => BitVec.ofNat 32 ((v % 2 ^ 384).toNat / 2 ^ (32 * j))) := by
    apply List.ext_getElem
    · simp
    · intro i h1 h2
      simp [wordsOfInt]
  rw [u384, hl, limbs_digits, Nat.mod_eq_of_lt]
  have h0 : (0 : Int) < 2 ^ 384 := by positivity
  have h1 := Int.emod_lt_of_pos v h0
  have h2 := Int.emod_nonneg v (ne_of_gt h0)
  norm_num at *
  omega

/-! ### The loops -/

@[simp] theorem length_mulLoop (l : List Word) (c : Nat) : (mulLoop l c).1.length = l.length := by
  induction l generalizing c with
  | nil => rfl
  | cons w ws ih => simp [mulLoop, ih]

/-- The multiply loop (R129): the words and the carry left together are 27 times the words, plus the carry in. -/
theorem mulLoop_value (l : List Word) (c : Nat) :
    limbs (mulLoop l c).1 + 2 ^ (32 * l.length) * (mulLoop l c).2 = 27 * limbs l + c := by
  induction l generalizing c with
  | nil => simp [mulLoop]
  | cons w ws ih =>
    have := ih ((w.toNat * 27 + c) / 2 ^ 32)
    simp only [mulLoop, radix, limbs_cons, List.length_cons, BitVec.toNat_ofNat]
    rw [show 32 * (ws.length + 1) = 32 + 32 * ws.length by ring, Nat.pow_add]
    have hd := Nat.mod_add_div (w.toNat * 27 + c) (2 ^ 32)
    nlinarith

/-- The carry left by the multiply loop stays below 27 if the carry in is. -/
theorem mulLoop_carry_lt (l : List Word) {c : Nat} (hc : c < 27) : (mulLoop l c).2 < 27 := by
  induction l generalizing c with
  | nil => simpa [mulLoop] using hc
  | cons w ws ih =>
    have hw := w.isLt
    exact ih (by simp only [radix]; omega)

@[simp] theorem length_divLoop (l : List Word) : (divLoop l).1.length = l.length := by
  induction l with
  | nil => rfl
  | cons w ws ih => simp [divLoop, ih]

theorem divLoop_rem_lt (l : List Word) : (divLoop l).2 < 27 := by
  cases l with
  | nil => simp [divLoop]
  | cons w ws => simp only [divLoop, radix]; exact Nat.mod_lt _ (by norm_num)

/-- The division loop (R130): quotient and remainder of the words by 27. -/
theorem divLoop_value (l : List Word) : 27 * limbs (divLoop l).1 + (divLoop l).2 = limbs l := by
  induction l with
  | nil => rfl
  | cons w ws ih =>
    have hw := w.isLt
    have hr := divLoop_rem_lt ws
    simp only [divLoop, radix, limbs_cons, BitVec.toNat_ofNat]
    have hq : ((divLoop ws).2 * 2 ^ 32 + w.toNat) / 27 < 2 ^ 32 := by omega
    rw [Nat.mod_eq_of_lt hq]
    have := Nat.div_add_mod ((divLoop ws).2 * 2 ^ 32 + w.toNat) 27
    omega

@[simp] theorem length_addSmallLoop (l : List Word) (c : Nat) : (addSmallLoop l c).1.length = l.length := by
  induction l generalizing c with
  | nil => rfl
  | cons w ws ih =>
    simp only [addSmallLoop]
    split
    · rfl
    · simp [ih]

/-- The add-small loop (R128): modulo the width, the words plus the carry in. -/
theorem addSmallLoop_value (l : List Word) (c : Nat) :
    limbs (addSmallLoop l c).1 % 2 ^ (32 * l.length) = (limbs l + c) % 2 ^ (32 * l.length) := by
  induction l generalizing c with
  | nil => simp [Nat.mod_one]
  | cons w ws ih =>
    simp only [addSmallLoop]
    have hd := Nat.mod_add_div (w.toNat + c) (2 ^ 32)
    rw [List.length_cons, show 32 * (ws.length + 1) = 32 + 32 * ws.length by ring, Nat.pow_add]
    split
    · rename_i h
      rcases h with h | h
      · rw [h, Nat.mul_zero, Nat.add_zero] at hd
        simp only [limbs_cons, BitVec.toNat_ofNat]
        congr 1
        omega
      · subst h
        simp [limbs_cons]
    · simp only [limbs_cons, BitVec.toNat_ofNat]
      have h1 := ih ((w.toNat + c) / 2 ^ 32)
      have e : w.toNat + 2 ^ 32 * limbs ws + c =
          (w.toNat + c) % 2 ^ 32 + 2 ^ 32 * (limbs ws + (w.toNat + c) / 2 ^ 32) := by
        rw [Nat.mul_add]; omega
      rw [e, Nat.mod_mul, Nat.mod_mul]
      have a1 : ∀ x : Nat, ((w.toNat + c) % 2 ^ 32 + 2 ^ 32 * x) % 2 ^ 32 = (w.toNat + c) % 2 ^ 32 := by
        intro x; omega
      have a2 : ∀ x : Nat, ((w.toNat + c) % 2 ^ 32 + 2 ^ 32 * x) / 2 ^ 32 = x := by
        intro x; omega
      rw [a1, a1, a2, a2, h1]

theorem addSmallLoop_index_lt (l : List Word) (c : Nat) (h : l ≠ []) : (addSmallLoop l c).2 < l.length := by
  induction l generalizing c with
  | nil => exact absurd rfl h
  | cons w ws ih =>
    simp only [addSmallLoop]
    split
    · simp
    · rename_i hne
      have := ih ((w.toNat + c) / 2 ^ 32) (fun hw => hne (.inr hw))
      simp only [List.length_cons]
      omega

/-- Above the index it answers, the add-small loop changes no word (R128). -/
theorem addSmallLoop_above (l : List Word) (c j : Nat) (h : (addSmallLoop l c).2 < j) :
    (addSmallLoop l c).1[j]? = l[j]? := by
  induction l generalizing c j with
  | nil => rfl
  | cons w ws ih =>
    simp only [addSmallLoop] at h ⊢
    split at h
    · rename_i hs
      rw [if_pos hs]
      cases j with
      | zero => omega
      | succ j => rfl
    · rename_i hs
      rw [if_neg hs]
      cases j with
      | zero => omega
      | succ j =>
        simp only [List.getElem?_cons_succ]
        exact ih _ _ (by simp only at h; omega)

/-! ### Lengths of what the back ends make -/

@[simp] theorem length_bytesOfWord (w : Word) : (bytesOfWord w).length = 4 := rfl

@[simp] theorem length_storeBytes (w : Words) : (storeBytes w).length = 48 := by
  simp [storeBytes, List.length_flatMap]

@[simp] theorem length_tritSlots (v : Int) : (tritSlots v).length = 3 := rfl

theorem length_divisionLoop_digits (n : Nat) (w : Words) (nz : Nat) : (divisionLoop n w nz).digits.length = n := by
  induction n generalizing w nz with
  | zero => rfl
  | succ n ih => simp [divisionLoop, ih]

@[simp] theorem length_decodeValues (bytes : List Byte) : (decodeValues bytes).length = 81 := by
  simp [decodeValues, divideOperand, length_divisionLoop_digits]

theorem length_combineTrits (ts : List Int) : (combineTrits ts).length = ts.length / 3 := by
  induction ts using combineTrits.induct with
  | case1 t0 t1 t2 rest ih => simp only [combineTrits, List.length_cons, ih]; omega
  | case2 ts h =>
    have hlen : ts.length < 3 := by
      rcases ts with _ | ⟨a, _ | ⟨b, _ | ⟨c, r⟩⟩⟩
      · simp
      · simp
      · simp
      · exact absurd rfl (h a b c r)
    rw [combineTrits]
    · simp only [List.length_nil]; omega
    · exact h

end Sys2Proof.Machine
end

