-- ==== Sys2Proof/Laws/Encoding.lean ====
section
/-! SUPPORT. Laws/Encoding.lean: the fields of a command word and of the interface registers, as numbers. -/

namespace Sys2Proof

theorem Instr.wf_iff (i : Instr) : i.wf = true ↔ i.len ≤ 255 := decide_eq_true_iff

theorem toNat_opField (c : Word) : (opField c).toNat = c.toNat % 16 := by
  simp [opField]

theorem toNat_rsv0Field (c : Word) : (rsv0Field c).toNat = c.toNat / 16 % 16 := by
  simp [rsv0Field, Nat.shiftRight_eq_div_pow]

theorem toNat_lenField (c : Word) : (lenField c).toNat = c.toNat / 256 % 256 := by
  simp [lenField, Nat.shiftRight_eq_div_pow]

theorem toNat_rsv1Field (c : Word) : (rsv1Field c).toNat = c.toNat / 65536 := by
  have := c.isLt
  simp only [rsv1Field, BitVec.extractLsb'_toNat, Nat.shiftRight_eq_div_pow]
  omega

/-- Joining a field on top of others, as numbers. -/
theorem toNat_append_eq {m n : Nat} (x : BitVec m) (y : BitVec n) :
    (x ++ y).toNat = x.toNat * 2 ^ n + y.toNat := by
  rw [BitVec.toNat_append, ← Nat.shiftLeft_add_eq_or_of_lt y.isLt, Nat.shiftLeft_eq]

theorem toNat_opcode_lt (i : Instr) : (opcode i).toNat < 16 := (opcode i).isLt

/-- The command word as a number (R70, R77). -/
theorem toNat_encode (i : Instr) : (encode i).toNat = i.len % 256 * 256 + (opcode i).toNat := by
  unfold encode
  rw [toNat_append_eq, toNat_append_eq, toNat_append_eq]
  simp

namespace Machine

/-- The value of `STATUS` as a number (R24). -/
theorem Status.toNat_pack (st : Status) :
    st.pack.toNat = st.state.code.toNat + 16 * st.err.code.toNat + 256 * st.expected.toNat
      + 65536 * st.errIndex.toNat + 16777216 * st.lastOp.toNat := by
  unfold Status.pack
  rw [toNat_append_eq, toNat_append_eq, toNat_append_eq, toNat_append_eq, toNat_append_eq, toNat_append_eq,
    toNat_append_eq]
  simp
  ring

/-- The value of `OUT_LEN` as a number (R27). -/
theorem toNat_packOutLen (count : BitVec 8) : (packOutLen count).toNat = count.toNat := by
  unfold packOutLen
  rw [toNat_append_eq]
  simp

end Machine

end Sys2Proof
end

