-- ==== Sys2Proof/Laws/Memory.lean ====
section
/-! SUPPORT. Laws/Memory.lean: reading after a write, and every memory operation keeps the canonical form. -/

namespace Sys2Proof.Machine

@[simp] theorem Memory.read_nil (a : Nat) : Memory.read [] a = none := rfl

theorem Memory.read_cons (b : Nat) (x : Byte) (m : Memory) (a : Nat) :
    Memory.read ((b, x) :: m) a = if a = b then some x else Memory.read m a := rfl

/-! ### Read after write -/

theorem Memory.read_write (m : Memory) (a b : Nat) (x : Byte) :
    (m.write a x).read b = if b = a then some x else m.read b := by
  induction m with
  | nil => rfl
  | cons c rest ih =>
    obtain ⟨d, y⟩ := c
    by_cases hlt : a < d
    · simp only [Memory.write, hlt, if_true, Memory.read_cons]
    · by_cases heq : a = d
      · subst heq
        simp only [Memory.write, lt_irrefl, if_false, if_true, Memory.read_cons]
        split <;> rfl
      · simp only [Memory.write, hlt, heq, if_false, Memory.read_cons, ih]
        by_cases hbd : b = d
        · subst hbd
          have : b ≠ a := fun h => heq h.symm
          simp [this]
        · simp [hbd]

@[simp] theorem Memory.read_write_same (m : Memory) (a : Nat) (x : Byte) :
    (m.write a x).read a = some x := by
  simp [Memory.read_write]

theorem Memory.read_write_other (m : Memory) {a b : Nat} (x : Byte) (h : b ≠ a) :
    (m.write a x).read b = m.read b := by
  simp [Memory.read_write, h]

/-- What a block of consecutive stores does to every offset. -/
theorem Memory.read_writeList (m : Memory) (a : Nat) (xs : List Byte) (b : Nat) :
    (m.writeList a xs).read b = if a ≤ b ∧ b < a + xs.length then xs[b - a]? else m.read b := by
  induction xs generalizing m a with
  | nil => simp [Memory.writeList]
  | cons x rest ih =>
    simp only [Memory.writeList, ih, List.length_cons, Memory.read_write]
    by_cases h : a + 1 ≤ b ∧ b < a + 1 + rest.length
    · have h' : a ≤ b ∧ b < a + (rest.length + 1) := by omega
      obtain ⟨j, rfl⟩ : ∃ j, b = a + 1 + j := ⟨b - (a + 1), by omega⟩
      have e1 : a + 1 + j - (a + 1) = j := by omega
      have e2 : a + 1 + j - a = j + 1 := by omega
      rw [if_pos h, if_pos h', e1, e2, List.getElem?_cons_succ]
    · rw [if_neg h]
      by_cases hb : b = a
      · subst hb
        simp
      · have h' : ¬ (a ≤ b ∧ b < a + (rest.length + 1)) := by omega
        rw [if_neg h', if_neg hb]

theorem Memory.read_dropOut (m : Memory) (a : Nat) :
    m.dropOut.read a = if a < 0x200 then m.read a else none := by
  induction m with
  | nil => simp [Memory.dropOut]
  | cons c rest ih =>
    obtain ⟨d, y⟩ := c
    have e : Memory.dropOut ((d, y) :: rest) =
        if d < 0x200 then (d, y) :: Memory.dropOut rest else Memory.dropOut rest := by
      by_cases h : d < 0x200 <;> simp [Memory.dropOut, h]
    rw [e]
    by_cases h : d < 0x200
    · rw [if_pos h, Memory.read_cons, Memory.read_cons, ih]
      by_cases had : a = d
      · subst had; simp [h]
      · simp [had]
    · rw [if_neg h, Memory.read_cons, ih]
      by_cases had : a = d
      · subst had; simp [h]
      · simp [had]

/-! ### The canonical form -/

theorem Memory.wf_nil : Memory.wf [] := List.Pairwise.nil

theorem Memory.mem_write {m : Memory} {a : Nat} {x : Byte} {c : Host.Cell} (h : c ∈ m.write a x) :
    c = (a, x) ∨ c ∈ m := by
  induction m with
  | nil => simpa [Memory.write] using h
  | cons d rest ih =>
    obtain ⟨d, y⟩ := d
    simp only [Memory.write] at h
    split at h
    · simpa using h
    · split at h
      · rcases List.mem_cons.1 h with h | h
        · exact .inl h
        · exact .inr (List.mem_cons_of_mem _ h)
      · rcases List.mem_cons.1 h with h | h
        · exact .inr (h ▸ List.mem_cons_self)
        · exact (ih h).imp id (List.mem_cons_of_mem _)

theorem Memory.wf_write {m : Memory} (a : Nat) (x : Byte) (h : m.wf) : (m.write a x).wf := by
  induction m with
  | nil => simp [Memory.write, Memory.wf]
  | cons d rest ih =>
    obtain ⟨d, y⟩ := d
    obtain ⟨hd, hrest⟩ := List.pairwise_cons.1 h
    simp only [Memory.write]
    split
    · rename_i hlt
      refine List.pairwise_cons.2 ⟨fun c hc => ?_, h⟩
      rcases List.mem_cons.1 hc with rfl | hc
      · exact hlt
      · exact lt_trans hlt (hd c hc)
    · split
      · rename_i heq
        subst heq
        exact List.pairwise_cons.2 ⟨fun c hc => hd c hc, hrest⟩
      · rename_i hlt hne
        refine List.pairwise_cons.2 ⟨fun c hc => ?_, ih hrest⟩
        rcases Memory.mem_write hc with rfl | hc
        · show d < a
          omega
        · exact hd c hc

theorem Memory.wf_writeList {m : Memory} (a : Nat) (xs : List Byte) (h : m.wf) : (m.writeList a xs).wf := by
  induction xs generalizing m a with
  | nil => exact h
  | cons x rest ih => exact ih (a + 1) (Memory.wf_write a x h)

theorem Memory.wf_dropOut {m : Memory} (h : m.wf) : m.dropOut.wf := List.Pairwise.filter _ h

/-! ### Where the listed offsets lie -/

theorem Memory.mem_writeList {m : Memory} {a : Nat} {xs : List Byte} {c : Host.Cell}
    (h : c ∈ m.writeList a xs) : (a ≤ c.1 ∧ c.1 < a + xs.length) ∨ c ∈ m := by
  induction xs generalizing m a with
  | nil => exact .inr h
  | cons x rest ih =>
    rcases ih h with hc | hc
    · exact .inl (by simp only [List.length_cons]; omega)
    · rcases Memory.mem_write hc with rfl | hc
      · exact .inl (by simp)
      · exact .inr hc

theorem Memory.mem_dropOut {m : Memory} {c : Host.Cell} : c ∈ m.dropOut ↔ c ∈ m ∧ c.1 < 0x200 := by
  simp [Memory.dropOut]

/-- Two memories in canonical form that read alike are equal. -/
theorem Memory.eq_of_read {m n : Memory} (hm : m.wf) (hn : n.wf) (h : ∀ a, m.read a = n.read a) : m = n := by
  induction m generalizing n with
  | nil =>
    cases n with
    | nil => rfl
    | cons d rest => have := h d.1; simp [Memory.read] at this
  | cons c rest ih =>
    obtain ⟨a, x⟩ := c
    cases n with
    | nil => have := h a; simp [Memory.read] at this
    | cons d rest' =>
      obtain ⟨b, y⟩ := d
      obtain ⟨hc, hrest⟩ := List.pairwise_cons.1 hm
      obtain ⟨hd, hrest'⟩ := List.pairwise_cons.1 hn
      have none_of : ∀ (l : Memory) (k : Nat), (∀ c ∈ l, k < c.1) → l.read k = none := by
        intro l k hl
        induction l with
        | nil => rfl
        | cons e t iht =>
          obtain ⟨e, z⟩ := e
          have := hl (e, z) List.mem_cons_self
          rw [Memory.read_cons, if_neg (by simp at this; omega)]
          exact iht fun c hc => hl c (List.mem_cons_of_mem _ hc)
      have hab : a = b := by
        rcases Nat.lt_trichotomy a b with hlt | heq | hgt
        · have h1 := h a
          rw [Memory.read_cons, if_pos rfl, Memory.read_cons, if_neg (by omega),
            none_of rest' a fun c hc => lt_trans hlt (hd c hc)] at h1
          cases h1
        · exact heq
        · have h1 := h b
          rw [Memory.read_cons, if_neg (by omega), Memory.read_cons, if_pos rfl,
            none_of rest b fun c hcm => lt_trans hgt (hc c hcm)] at h1
          cases h1
      subst hab
      have hxy : x = y := by
        have h1 := h a
        simpa [Memory.read_cons] using h1
      subst hxy
      congr 1
      refine ih hrest hrest' fun k => ?_
      by_cases hk : k = a
      · subst hk
        rw [none_of rest k fun c hcm => hc c hcm, none_of rest' k fun c hcm => hd c hcm]
      · have h1 := h k
        simpa [Memory.read_cons, hk] using h1

end Sys2Proof.Machine
end

