-- ==== Sys2Proof/Laws/State.lean ====
section
/-! SUPPORT. Laws/State.lean: what each update of the state does to each field, and what each field is after reset, so
that no later proof unfolds a record update. -/

namespace Sys2Proof.Machine

/-! ### `raiseError` -/

@[simp] theorem raiseError_status (e : CoreError) (s : State) :
    (raiseError e s).status = { state := .error, err := e.code, expected := e.expected, errIndex := e.index, lastOp := s.status.lastOp } := rfl

@[simp] theorem raiseError_outLen (e : CoreError) (s : State) :
    (raiseError e s).outLen = 0 := rfl

@[simp] theorem raiseError_lcmd (e : CoreError) (s : State) :
    (raiseError e s).lcmd = s.lcmd := rfl

@[simp] theorem raiseError_mem (e : CoreError) (s : State) :
    (raiseError e s).mem = s.mem := rfl

@[simp] theorem raiseError_v (e : CoreError) (s : State) :
    (raiseError e s).v = s.v := rfl

@[simp] theorem raiseError_w (e : CoreError) (s : State) :
    (raiseError e s).w = s.w := rfl

@[simp] theorem raiseError_nz (e : CoreError) (s : State) :
    (raiseError e s).nz = s.nz := rfl

@[simp] theorem raiseError_seq (e : CoreError) (s : State) :
    (raiseError e s).seq = s.seq := rfl

@[simp] theorem raiseError_agenda (e : CoreError) (s : State) :
    (raiseError e s).agenda = s.agenda := rfl

@[simp] theorem raiseError_reply (e : CoreError) (s : State) :
    (raiseError e s).reply = s.reply := rfl

@[simp] theorem raiseError_freeReads (e : CoreError) (s : State) :
    (raiseError e s).freeReads = s.freeReads := rfl

@[simp] theorem raiseError_retired (e : CoreError) (s : State) :
    (raiseError e s).retired = s.retired := rfl

/-! ### `complete` -/

@[simp] theorem complete_status (rs : List Byte) (s : State) :
    (complete rs s).status = { state := .done, err := .none, expected := 0, errIndex := 0, lastOp := s.status.lastOp } := rfl

@[simp] theorem complete_outLen (rs : List Byte) (s : State) :
    (complete rs s).outLen = BitVec.ofNat 8 rs.length := rfl

@[simp] theorem complete_lcmd (rs : List Byte) (s : State) :
    (complete rs s).lcmd = s.lcmd := rfl

@[simp] theorem complete_mem (rs : List Byte) (s : State) :
    (complete rs s).mem = s.mem.writeList (outAddr 0) rs := rfl

@[simp] theorem complete_v (rs : List Byte) (s : State) :
    (complete rs s).v = s.v := rfl

@[simp] theorem complete_w (rs : List Byte) (s : State) :
    (complete rs s).w = s.w := rfl

@[simp] theorem complete_nz (rs : List Byte) (s : State) :
    (complete rs s).nz = s.nz := rfl

@[simp] theorem complete_seq (rs : List Byte) (s : State) :
    (complete rs s).seq = s.seq := rfl

@[simp] theorem complete_agenda (rs : List Byte) (s : State) :
    (complete rs s).agenda = s.agenda := rfl

@[simp] theorem complete_reply (rs : List Byte) (s : State) :
    (complete rs s).reply = s.reply := rfl

@[simp] theorem complete_freeReads (rs : List Byte) (s : State) :
    (complete rs s).freeReads = s.freeReads := rfl

@[simp] theorem complete_retired (rs : List Byte) (s : State) :
    (complete rs s).retired = s.retired := rfl

/-! ### `startCommand` -/

@[simp] theorem startCommand_status (c : Word) (s : State) :
    (startCommand c s).status = { state := .busy, err := .none, expected := 0, errIndex := 0, lastOp := opField c } := rfl

@[simp] theorem startCommand_outLen (c : Word) (s : State) :
    (startCommand c s).outLen = 0 := rfl

@[simp] theorem startCommand_lcmd (c : Word) (s : State) :
    (startCommand c s).lcmd = c := rfl

@[simp] theorem startCommand_mem (c : Word) (s : State) :
    (startCommand c s).mem = s.mem.dropOut := rfl

@[simp] theorem startCommand_v (c : Word) (s : State) :
    (startCommand c s).v = s.v := rfl

@[simp] theorem startCommand_w (c : Word) (s : State) :
    (startCommand c s).w = s.w := rfl

@[simp] theorem startCommand_nz (c : Word) (s : State) :
    (startCommand c s).nz = s.nz := rfl

@[simp] theorem startCommand_seq (c : Word) (s : State) :
    (startCommand c s).seq = s.seq := rfl

@[simp] theorem startCommand_agenda (c : Word) (s : State) :
    (startCommand c s).agenda = s.agenda := rfl

@[simp] theorem startCommand_reply (c : Word) (s : State) :
    (startCommand c s).reply = s.reply := rfl

@[simp] theorem startCommand_freeReads (c : Word) (s : State) :
    (startCommand c s).freeReads = s.freeReads := rfl

@[simp] theorem startCommand_retired (c : Word) (s : State) :
    (startCommand c s).retired = s.retired := rfl

/-! ### `loadSequencer` -/

@[simp] theorem loadSequencer_status (op : BitVec 4) (len idx : Nat) (s : State) :
    (loadSequencer op len idx s).status = s.status := rfl

@[simp] theorem loadSequencer_outLen (op : BitVec 4) (len idx : Nat) (s : State) :
    (loadSequencer op len idx s).outLen = s.outLen := rfl

@[simp] theorem loadSequencer_lcmd (op : BitVec 4) (len idx : Nat) (s : State) :
    (loadSequencer op len idx s).lcmd = s.lcmd := rfl

@[simp] theorem loadSequencer_mem (op : BitVec 4) (len idx : Nat) (s : State) :
    (loadSequencer op len idx s).mem = s.mem := rfl

@[simp] theorem loadSequencer_v (op : BitVec 4) (len idx : Nat) (s : State) :
    (loadSequencer op len idx s).v = s.v := rfl

@[simp] theorem loadSequencer_w (op : BitVec 4) (len idx : Nat) (s : State) :
    (loadSequencer op len idx s).w = s.w := rfl

@[simp] theorem loadSequencer_nz (op : BitVec 4) (len idx : Nat) (s : State) :
    (loadSequencer op len idx s).nz = s.nz := rfl

@[simp] theorem loadSequencer_seq (op : BitVec 4) (len idx : Nat) (s : State) :
    (loadSequencer op len idx s).seq = { op := op, len := BitVec.ofNat 8 len, index := idx } := rfl

@[simp] theorem loadSequencer_agenda (op : BitVec 4) (len idx : Nat) (s : State) :
    (loadSequencer op len idx s).agenda = s.agenda := rfl

@[simp] theorem loadSequencer_reply (op : BitVec 4) (len idx : Nat) (s : State) :
    (loadSequencer op len idx s).reply = s.reply := rfl

@[simp] theorem loadSequencer_freeReads (op : BitVec 4) (len idx : Nat) (s : State) :
    (loadSequencer op len idx s).freeReads = s.freeReads := rfl

@[simp] theorem loadSequencer_retired (op : BitVec 4) (len idx : Nat) (s : State) :
    (loadSequencer op len idx s).retired = s.retired := rfl

/-! ### `runDecoder` -/

@[simp] theorem runDecoder_status (bs : List Byte) (s : State) :
    (runDecoder bs s).status = s.status := by simp only [runDecoder]

@[simp] theorem runDecoder_outLen (bs : List Byte) (s : State) :
    (runDecoder bs s).outLen = s.outLen := by simp only [runDecoder]

@[simp] theorem runDecoder_lcmd (bs : List Byte) (s : State) :
    (runDecoder bs s).lcmd = s.lcmd := by simp only [runDecoder]

@[simp] theorem runDecoder_mem (bs : List Byte) (s : State) :
    (runDecoder bs s).mem = s.mem := by simp only [runDecoder]

@[simp] theorem runDecoder_v (bs : List Byte) (s : State) :
    (runDecoder bs s).v = tryteBuffer (decodeValues bs) := by simp only [runDecoder]

@[simp] theorem runDecoder_w (bs : List Byte) (s : State) :
    (runDecoder bs s).w = (divideOperand bs).w := by simp only [runDecoder]

@[simp] theorem runDecoder_nz (bs : List Byte) (s : State) :
    (runDecoder bs s).nz = (divideOperand bs).nz := by simp only [runDecoder]

@[simp] theorem runDecoder_seq (bs : List Byte) (s : State) :
    (runDecoder bs s).seq = s.seq := by simp only [runDecoder]

@[simp] theorem runDecoder_agenda (bs : List Byte) (s : State) :
    (runDecoder bs s).agenda = s.agenda := by simp only [runDecoder]

@[simp] theorem runDecoder_reply (bs : List Byte) (s : State) :
    (runDecoder bs s).reply = s.reply := by simp only [runDecoder]

@[simp] theorem runDecoder_freeReads (bs : List Byte) (s : State) :
    (runDecoder bs s).freeReads = s.freeReads := by simp only [runDecoder]

@[simp] theorem runDecoder_retired (bs : List Byte) (s : State) :
    (runDecoder bs s).retired = s.retired := by simp only [runDecoder]

/-! ### `forgetHidden` -/

@[simp] theorem forgetHidden_status (s : State) :
    (forgetHidden s).status = s.status := rfl

@[simp] theorem forgetHidden_outLen (s : State) :
    (forgetHidden s).outLen = s.outLen := rfl

@[simp] theorem forgetHidden_lcmd (s : State) :
    (forgetHidden s).lcmd = Config.deadLcmd s.retired := rfl

@[simp] theorem forgetHidden_mem (s : State) :
    (forgetHidden s).mem = s.mem := rfl

@[simp] theorem forgetHidden_v (s : State) :
    (forgetHidden s).v = Vector.ofFn (fun i => ((Config.deadDigit s.retired i).val : Int) - 13) := rfl

@[simp] theorem forgetHidden_w (s : State) :
    (forgetHidden s).w = Config.deadW s.retired := rfl

@[simp] theorem forgetHidden_nz (s : State) :
    (forgetHidden s).nz = (Config.deadNz s.retired).val := rfl

@[simp] theorem forgetHidden_seq (s : State) :
    (forgetHidden s).seq = { op := Config.deadSeqOp s.retired, len := Config.deadSeqLen s.retired, index := (Config.deadSeqIndex s.retired).val } := rfl

@[simp] theorem forgetHidden_agenda (s : State) :
    (forgetHidden s).agenda = s.agenda := rfl

@[simp] theorem forgetHidden_reply (s : State) :
    (forgetHidden s).reply = s.reply := rfl

@[simp] theorem forgetHidden_freeReads (s : State) :
    (forgetHidden s).freeReads = s.freeReads := rfl

@[simp] theorem forgetHidden_retired (s : State) :
    (forgetHidden s).retired = s.retired + 1 := rfl

/-! ### `applyReset` -/

@[simp] theorem applyReset_status (s : State) : (applyReset s).status = State.reset.status := rfl

@[simp] theorem applyReset_outLen (s : State) : (applyReset s).outLen = State.reset.outLen := rfl

@[simp] theorem applyReset_lcmd (s : State) : (applyReset s).lcmd = State.reset.lcmd := rfl

@[simp] theorem applyReset_mem (s : State) : (applyReset s).mem = State.reset.mem := rfl

@[simp] theorem applyReset_v (s : State) : (applyReset s).v = State.reset.v := rfl

@[simp] theorem applyReset_w (s : State) : (applyReset s).w = State.reset.w := rfl

@[simp] theorem applyReset_nz (s : State) : (applyReset s).nz = State.reset.nz := rfl

@[simp] theorem applyReset_seq (s : State) : (applyReset s).seq = State.reset.seq := rfl

@[simp] theorem applyReset_agenda (s : State) : (applyReset s).agenda = s.agenda := rfl

@[simp] theorem applyReset_reply (s : State) : (applyReset s).reply = s.reply := rfl

@[simp] theorem applyReset_freeReads (s : State) : (applyReset s).freeReads = s.freeReads := rfl

@[simp] theorem applyReset_retired (s : State) : (applyReset s).retired = s.retired := rfl

/-! ### `readInSlot` -/

@[simp] theorem readInSlot_status (off : Nat) (s : State) : (readInSlot off s).status = s.status := by
  unfold readInSlot; split <;> rfl

@[simp] theorem readInSlot_outLen (off : Nat) (s : State) : (readInSlot off s).outLen = s.outLen := by
  unfold readInSlot; split <;> rfl

@[simp] theorem readInSlot_lcmd (off : Nat) (s : State) : (readInSlot off s).lcmd = s.lcmd := by
  unfold readInSlot; split <;> rfl

@[simp] theorem readInSlot_mem (off : Nat) (s : State) : (readInSlot off s).mem = s.mem := by
  unfold readInSlot; split <;> rfl

@[simp] theorem readInSlot_v (off : Nat) (s : State) : (readInSlot off s).v = s.v := by
  unfold readInSlot; split <;> rfl

@[simp] theorem readInSlot_w (off : Nat) (s : State) : (readInSlot off s).w = s.w := by
  unfold readInSlot; split <;> rfl

@[simp] theorem readInSlot_nz (off : Nat) (s : State) : (readInSlot off s).nz = s.nz := by
  unfold readInSlot; split <;> rfl

@[simp] theorem readInSlot_seq (off : Nat) (s : State) : (readInSlot off s).seq = s.seq := by
  unfold readInSlot; split <;> rfl

@[simp] theorem readInSlot_agenda (off : Nat) (s : State) : (readInSlot off s).agenda = s.agenda := by
  unfold readInSlot; split <;> rfl

@[simp] theorem readInSlot_retired (off : Nat) (s : State) : (readInSlot off s).retired = s.retired := by
  unfold readInSlot; split <;> rfl

/-! ### `State.reset` -/

@[simp] theorem reset_status : State.reset.status = { state := .idle, err := .none, expected := 0, errIndex := 0, lastOp := 0 } := rfl

@[simp] theorem reset_outLen : State.reset.outLen = 0 := rfl

@[simp] theorem reset_lcmd : State.reset.lcmd = 0 := rfl

@[simp] theorem reset_mem : State.reset.mem = [] := rfl

@[simp] theorem reset_v : State.reset.v = Vector.replicate 81 0 := rfl

@[simp] theorem reset_w : State.reset.w = Vector.replicate 12 0 := rfl

@[simp] theorem reset_nz : State.reset.nz = 0 := rfl

@[simp] theorem reset_seq : State.reset.seq = { op := 0, len := 0, index := 0 } := rfl

@[simp] theorem reset_agenda : State.reset.agenda = [] := rfl

@[simp] theorem reset_reply : State.reset.reply = .none := rfl

@[simp] theorem reset_freeReads : State.reset.freeReads = 0 := rfl

@[simp] theorem reset_retired : State.reset.retired = 0 := rfl

/-! ### `State.withFetchWord` -/

@[simp] theorem withFetchWord_lcmd (s : State) (nbits w : Nat) :
    (s.withFetchWord nbits w).lcmd = BitVec.ofNat 32 (w % 2 ^ nbits) := rfl

@[simp] theorem withFetchWord_agenda (s : State) (nbits w : Nat) :
    (s.withFetchWord nbits w).agenda = .coreRun :: s.agenda := rfl

@[simp] theorem withFetchWord_mem (s : State) (nbits w : Nat) :
    (s.withFetchWord nbits w).mem = s.mem.dropOut := rfl

@[simp] theorem withFetchWord_isBusy (s : State) (nbits w : Nat) :
    (s.withFetchWord nbits w).isBusy = true := rfl

end Sys2Proof.Machine
end

