-- ==== Sys2Proof/Laws/Ops.lean ====
section
/-! SUPPORT. Laws/Ops.lean: for each shared operation, once, everything it can do. -/

namespace Sys2Proof.Machine

/-! ### The slots after an update -/

theorem inSlot_raiseError (e : CoreError) (s : State) (k : Nat) : (raiseError e s).inSlot k = s.inSlot k := rfl

theorem outSlot_raiseError (e : CoreError) (s : State) (k : Nat) : (raiseError e s).outSlot k = s.outSlot k := rfl

/-- A completion writes the offsets of its results and no other (R206). -/
theorem read_complete (rs : List Byte) (s : State) (a : Nat) :
    (complete rs s).mem.read a = if 0x200 ≤ a ∧ a < 0x200 + rs.length then rs[a - 0x200]? else s.mem.read a := by
  rw [complete_mem, Memory.read_writeList]
  rfl

theorem outSlot_complete (rs : List Byte) (s : State) (k : Nat) :
    (complete rs s).outSlot k = if k < rs.length then rs[k]? else s.outSlot k := by
  unfold State.outSlot outAddr
  rw [read_complete]
  by_cases h : k < rs.length
  · rw [if_pos h, if_pos ⟨by omega, by omega⟩, Nat.add_sub_cancel_left]
  · rw [if_neg h, if_neg (by omega)]

theorem inSlot_complete (rs : List Byte) (s : State) {k : Nat} (hk : k < 256) :
    (complete rs s).inSlot k = s.inSlot k := by
  unfold State.inSlot inAddr
  rw [read_complete, if_neg (by omega)]

/-- A command write clears every `out_valid` flag (R71). -/
theorem outSlot_startCommand (c : Word) (s : State) (k : Nat) : (startCommand c s).outSlot k = none := by
  unfold State.outSlot outAddr
  rw [startCommand_mem, Memory.read_dropOut, if_neg (by omega)]

theorem inSlot_startCommand (c : Word) (s : State) {k : Nat} (hk : k < 256) :
    (startCommand c s).inSlot k = s.inSlot k := by
  unfold State.inSlot inAddr
  rw [startCommand_mem, Memory.read_dropOut, if_pos (by omega)]

/-! ### The operands -/

@[simp] theorem Fetched.cons_elements {α : Type} (x : α) (xs : List α) :
    (Fetched.elements xs).cons x = .elements (x :: xs) := rfl
@[simp] theorem Fetched.cons_unwritten {α : Type} (x : α) (k : Nat) :
    (Fetched.unwritten k).cons x = .unwritten k := rfl
@[simp] theorem Fetched.cons_invalid {α : Type} (x : α) (k : Nat) :
    (Fetched.invalid k).cons x = .invalid k := rfl

theorem fetchOperands_zero {α : Type} (element : Byte → Option α) (s : State) (k : Nat) :
    fetchOperands element s k 0 = .elements [] := rfl

theorem fetchOperands_succ {α : Type} (element : Byte → Option α) (s : State) (k n : Nat) :
    fetchOperands element s k (n + 1) =
      match s.inSlot k with
      | none => .unwritten k
      | some b =>
        match element b with
        | none => .invalid k
        | some x => (fetchOperands element s (k + 1) n).cons x := rfl

/-- The fetched elements are those of the slots, one for each. -/
theorem fetchOperands_elements {α : Type} {element : Byte → Option α} {s : State} {k n : Nat} {xs : List α}
    (h : fetchOperands element s k n = .elements xs) :
    xs.length = n ∧ ∀ j, j < n → ∃ b x, s.inSlot (k + j) = some b ∧ element b = some x ∧ xs[j]? = some x := by
  induction n generalizing k xs with
  | zero =>
    rw [fetchOperands_zero] at h
    cases h
    exact ⟨rfl, fun j hj => absurd hj (Nat.not_lt_zero j)⟩
  | succ n ih =>
    rw [fetchOperands_succ] at h
    split at h
    · cases h
    · rename_i b hb
      split at h
      · cases h
      · rename_i x hx
        cases hf : fetchOperands element s (k + 1) n with
        | unwritten j => rw [hf] at h; cases h
        | invalid j => rw [hf] at h; cases h
        | elements ys =>
          rw [hf, Fetched.cons_elements] at h
          cases h
          obtain ⟨hlen, hall⟩ := ih hf
          refine ⟨by simp [hlen], fun j hj => ?_⟩
          cases j with
          | zero => exact ⟨b, x, hb, hx, rfl⟩
          | succ j =>
            obtain ⟨b', x', h1, h2, h3⟩ := hall j (by omega)
            exact ⟨b', x', by rw [← h1]; congr 1; omega, h2, by simpa using h3⟩

/-- Slots that all hold valid elements are fetched whole. -/
theorem fetchOperands_of_valid {α : Type} {element : Byte → Option α} {s : State} {k : Nat} {bs : List Byte}
    {xs : List α} (hslots : ∀ j, j < bs.length → s.inSlot (k + j) = bs[j]?)
    (hvalid : bs.map element = xs.map some) :
    fetchOperands element s k bs.length = .elements xs := by
  induction bs generalizing k xs with
  | nil =>
    cases xs with
    | nil => rfl
    | cons x xs => simp at hvalid
  | cons b bs ih =>
    cases xs with
    | nil => simp at hvalid
    | cons x xs =>
      simp only [List.map_cons, List.cons.injEq] at hvalid
      have h0 := hslots 0 (by simp)
      simp only [Nat.add_zero, List.getElem?_cons_zero] at h0
      have hrest := ih (k := k + 1) (fun j hj => by
        have := hslots (j + 1) (by simpa using hj)
        rw [List.getElem?_cons_succ] at this
        rw [← this]; congr 1; omega) hvalid.2
      rw [List.length_cons, fetchOperands_succ, h0]
      simp only [hvalid.1, hrest, Fetched.cons_elements]

/-- Valid slots before slot `k + m` do not decide the fetch: what decides it is the fetch from there on. -/
theorem fetchOperands_skip {α : Type} {element : Byte → Option α} {s : State} {k m n : Nat}
    (h : ∀ j, j < m → ∃ b x, s.inSlot (k + j) = some b ∧ element b = some x) :
    (∀ i, fetchOperands element s (k + m) n = .unwritten i → fetchOperands element s k (m + n) = .unwritten i) ∧
    (∀ i, fetchOperands element s (k + m) n = .invalid i → fetchOperands element s k (m + n) = .invalid i) := by
  induction m generalizing k with
  | zero => simp
  | succ m ih =>
    obtain ⟨b, x, hb, hx⟩ := h 0 (by omega)
    rw [Nat.add_zero] at hb
    have := ih (k := k + 1) fun j hj => by
      have := h (j + 1) (by omega)
      rwa [show k + (j + 1) = k + 1 + j by omega] at this
    rw [show k + 1 + m = k + (m + 1) by omega] at this
    rw [show m + 1 + n = m + n + 1 by omega, fetchOperands_succ, hb]
    simp only [hx]
    refine ⟨fun i hi => ?_, fun i hi => ?_⟩
    · rw [this.1 i hi, Fetched.cons_unwritten]
    · rw [this.2 i hi, Fetched.cons_invalid]

/-- An unwritten slot after valid ones stops the fetch there (R205). -/
theorem fetchOperands_first_unwritten {α : Type} {element : Byte → Option α} {s : State} {k n : Nat}
    (hk : k < n) (h : ∀ j, j < k → ∃ b x, s.inSlot j = some b ∧ element b = some x) (hs : s.inSlot k = none) :
    fetchOperands element s 0 n = .unwritten k := by
  obtain ⟨m, rfl⟩ : ∃ m, n = k + (m + 1) := ⟨n - k - 1, by omega⟩
  refine (fetchOperands_skip (k := 0) (m := k) (n := m + 1) (by simpa using h)).1 k ?_
  rw [Nat.zero_add, fetchOperands_succ, hs]

/-- An invalid slot after valid ones stops the fetch there (R205). -/
theorem fetchOperands_first_invalid {α : Type} {element : Byte → Option α} {s : State} {k n : Nat} {b : Byte}
    (hk : k < n) (h : ∀ j, j < k → ∃ b x, s.inSlot j = some b ∧ element b = some x) (hs : s.inSlot k = some b)
    (hb : element b = none) : fetchOperands element s 0 n = .invalid k := by
  obtain ⟨m, rfl⟩ : ∃ m, n = k + (m + 1) := ⟨n - k - 1, by omega⟩
  refine (fetchOperands_skip (k := 0) (m := k) (n := m + 1) (by simpa using h)).2 k ?_
  rw [Nat.zero_add, fetchOperands_succ, hs]
  simp only [hb]

/-- A fetch that stops at an unwritten slot found every slot before it written and valid. -/
theorem fetchOperands_before {α : Type} {element : Byte → Option α} {s : State} {k n i : Nat}
    (h : fetchOperands element s k n = .unwritten i ∨ fetchOperands element s k n = .invalid i) :
    ∀ j, k ≤ j → j < i → ∃ b x, s.inSlot j = some b ∧ element b = some x := by
  induction n generalizing k with
  | zero => rcases h with h | h <;> rw [fetchOperands_zero] at h <;> cases h
  | succ n ih =>
    intro j hj hji
    rw [fetchOperands_succ] at h
    cases hb : s.inSlot k with
    | none =>
      rw [hb] at h
      rcases h with h | h <;> cases h
      omega
    | some b =>
      rw [hb] at h
      cases hx : element b with
      | none =>
        simp only [hx] at h
        rcases h with h | h <;> cases h
        omega
      | some x =>
        simp only [hx] at h
        have hrest : fetchOperands element s (k + 1) n = .unwritten i ∨
            fetchOperands element s (k + 1) n = .invalid i := by
          cases hf : fetchOperands element s (k + 1) n with
          | elements xs => rw [hf] at h; rcases h with h | h <;> cases h
          | unwritten i' => rw [hf] at h; rcases h with h | h <;> cases h; exact .inl rfl
          | invalid i' => rw [hf] at h; rcases h with h | h <;> cases h; exact .inr rfl
        by_cases hjk : j = k
        · exact ⟨b, x, hjk ▸ hb, hx⟩
        · exact ih hrest j (by omega) hji

/-- Where the fetch stops at an unwritten slot. -/
theorem fetchOperands_unwritten {α : Type} {element : Byte → Option α} {s : State} {k n j : Nat}
    (h : fetchOperands element s k n = .unwritten j) : k ≤ j ∧ j < k + n ∧ s.inSlot j = none := by
  induction n generalizing k with
  | zero => rw [fetchOperands_zero] at h; cases h
  | succ n ih =>
    rw [fetchOperands_succ] at h
    split at h
    · rename_i hb
      cases h
      exact ⟨le_refl _, by omega, hb⟩
    · split at h
      · cases h
      · cases hf : fetchOperands element s (k + 1) n with
        | unwritten i =>
          rw [hf, Fetched.cons_unwritten] at h
          cases h
          obtain ⟨h1, h2, h3⟩ := ih hf
          exact ⟨by omega, by omega, h3⟩
        | invalid i => rw [hf] at h; cases h
        | elements ys => rw [hf] at h; cases h

/-- Where the fetch stops at an invalid slot. -/
theorem fetchOperands_invalid {α : Type} {element : Byte → Option α} {s : State} {k n j : Nat}
    (h : fetchOperands element s k n = .invalid j) :
    k ≤ j ∧ j < k + n ∧ ∃ b, s.inSlot j = some b ∧ element b = none := by
  induction n generalizing k with
  | zero => rw [fetchOperands_zero] at h; cases h
  | succ n ih =>
    rw [fetchOperands_succ] at h
    split at h
    · cases h
    · rename_i b hb
      split at h
      · rename_i hx
        cases h
        exact ⟨le_refl _, by omega, b, hb, hx⟩
      · cases hf : fetchOperands element s (k + 1) n with
        | unwritten i => rw [hf] at h; cases h
        | invalid i =>
          rw [hf, Fetched.cons_invalid] at h
          cases h
          obtain ⟨h1, h2, h3⟩ := ih hf
          exact ⟨by omega, by omega, h3⟩
        | elements ys => rw [hf] at h; cases h

/-- The fetch depends on the slots it reads alone. -/
theorem fetchOperands_congr {α : Type} (element : Byte → Option α) {s t : State} {k n : Nat}
    (h : ∀ j, j < n → s.inSlot (k + j) = t.inSlot (k + j)) :
    fetchOperands element s k n = fetchOperands element t k n := by
  induction n generalizing k with
  | zero => rfl
  | succ n ih =>
    have h0 := h 0 (by omega)
    rw [Nat.add_zero] at h0
    have hrest := ih (k := k + 1) fun j hj => by
      have := h (j + 1) (by omega)
      rwa [show k + (j + 1) = k + 1 + j by omega] at this
    rw [fetchOperands_succ, fetchOperands_succ, h0, hrest]

/-! ### Running an operation -/

/-- Everything `runOperation` can do (R75). -/
theorem runOperation_cases {α : Type} (expected : Nat) (element : Byte → Option α) (len : Nat)
    (body : List α → State → State) (s : State) :
    (len ≠ expected ∧ runOperation expected element len body s = .next (raiseError (.lengthError expected) s)) ∨
    (len = expected ∧ ∃ k, fetchOperands element s 0 expected = .unwritten k ∧
      runOperation expected element len body s = .fault (.hostProtocol (.unwrittenOperand k))) ∨
    (len = expected ∧ ∃ k, fetchOperands element s 0 expected = .invalid k ∧
      runOperation expected element len body s = .next (raiseError (.invalidElement k) s)) ∨
    (len = expected ∧ ∃ xs, fetchOperands element s 0 expected = .elements xs ∧
      runOperation expected element len body s = .next (body xs s)) := by
  by_cases h : len = expected
  · subst h
    cases hf : fetchOperands element s 0 len with
    | unwritten k => exact .inr (.inl ⟨rfl, k, rfl, by simp [runOperation, hf]⟩)
    | invalid k => exact .inr (.inr (.inl ⟨rfl, k, rfl, by simp [runOperation, hf]⟩))
    | elements xs => exact .inr (.inr (.inr ⟨rfl, xs, rfl, by simp [runOperation, hf]⟩))
  · exact .inl ⟨h, by simp [runOperation, h]⟩

theorem runOperation_wrong_length {α : Type} {expected : Nat} {element : Byte → Option α} {len : Nat}
    {body : List α → State → State} {s : State} (h : len ≠ expected) :
    runOperation expected element len body s = .next (raiseError (.lengthError expected) s) := by
  simp [runOperation, h]

theorem runOperation_of_elements {α : Type} {expected : Nat} {element : Byte → Option α}
    {body : List α → State → State} {s : State} {xs : List α}
    (h : fetchOperands element s 0 expected = .elements xs) :
    runOperation expected element expected body s = .next (body xs s) := by
  simp [runOperation, h]

theorem runOperation_of_unwritten {α : Type} {expected : Nat} {element : Byte → Option α}
    {body : List α → State → State} {s : State} {k : Nat}
    (h : fetchOperands element s 0 expected = .unwritten k) :
    runOperation expected element expected body s = .fault (.hostProtocol (.unwrittenOperand k)) := by
  simp [runOperation, h]

theorem runOperation_of_invalid {α : Type} {expected : Nat} {element : Byte → Option α}
    {body : List α → State → State} {s : State} {k : Nat}
    (h : fetchOperands element s 0 expected = .invalid k) :
    runOperation expected element expected body s = .next (raiseError (.invalidElement k) s) := by
  simp [runOperation, h]

/-! ### The host's accesses -/

/-- Everything a host read can do (R54 to R56, R210). -/
theorem hostRead_cases (off n : Nat) (s : State) :
    (off = 4 ∧ n = 4 ∧ hostRead off n s = .next { s with reply := .word s.status.pack }) ∨
    (off = 8 ∧ n = 4 ∧ hostRead off n s = .next { s with reply := .word (packOutLen s.outLen) }) ∨
    (0x100 ≤ off ∧ off < 0x200 ∧ n = 1 ∧ hostRead off n s = .next (readInSlot off s)) ∨
    (0x200 ≤ off ∧ off < 0x300 ∧ n = 1 ∧ ∃ b, s.mem.read off = some b ∧
      hostRead off n s = .next { s with reply := .byte b }) ∨
    (0x200 ≤ off ∧ off < 0x300 ∧ n = 1 ∧ s.mem.read off = none ∧
      hostRead off n s = .fault (.hostProtocol (.invalidResultRead (off - 0x200)))) ∨
    (¬ (off = 4 ∧ n = 4) ∧ ¬ (off = 8 ∧ n = 4) ∧ ¬ (0x100 ≤ off ∧ off < 0x300 ∧ n = 1) ∧
      hostRead off n s = .fault (.hostProtocol (.accessNotAdmitted off n))) := by
  by_cases h1 : off = 4 ∧ n = 4
  · exact .inl ⟨h1.1, h1.2, by simp [hostRead, h1]⟩
  by_cases h2 : off = 8 ∧ n = 4
  · exact .inr (.inl ⟨h2.1, h2.2, by simp [hostRead, h2]⟩)
  by_cases h3 : (0x100 ≤ off ∧ off < 0x200) ∧ n = 1
  · exact .inr (.inr (.inl ⟨h3.1.1, h3.1.2, h3.2, by simp [hostRead, h3, isInOffset]⟩))
  by_cases h4 : (0x200 ≤ off ∧ off < 0x300) ∧ n = 1
  · have h3' : ¬ off < 0x200 := by omega
    cases hm : s.mem.read off with
    | some b =>
      exact .inr (.inr (.inr (.inl ⟨h4.1.1, h4.1.2, h4.2, b, rfl, by
        simp [hostRead, h3', h4, isInOffset, isOutOffset, hm]⟩)))
    | none =>
      exact .inr (.inr (.inr (.inr (.inl ⟨h4.1.1, h4.1.2, h4.2, rfl, by
        simp [hostRead, h3', h4, isInOffset, isOutOffset, hm]⟩))))
  · refine .inr (.inr (.inr (.inr (.inr ⟨h1, h2, by omega, ?_⟩))))
    simp only [hostRead, h1, h2, if_false, isInOffset, isOutOffset, Bool.and_eq_true, decide_eq_true_eq, h3, h4]

/-- Everything a host write can do (R54 to R56, R71, R210). -/
theorem hostWrite_cases (off n : Nat) (v : Word) (s : State) :
    (off = 0 ∧ n = 4 ∧ s.isBusy = false ∧ hostWrite off n v s = .next (startCommand v s)) ∨
    (off = 0 ∧ n = 4 ∧ s.isBusy = true ∧ hostWrite off n v s = .fault (.hostProtocol .commandWhileBusy)) ∨
    (0x100 ≤ off ∧ off < 0x200 ∧ n = 1 ∧ s.isBusy = false ∧
      hostWrite off n v s = .next { s with mem := s.mem.write off (v.extractLsb' 0 8) }) ∨
    (0x100 ≤ off ∧ off < 0x200 ∧ n = 1 ∧ s.isBusy = true ∧
      hostWrite off n v s = .fault (.hostProtocol (.operandWriteWhileBusy (off - 0x100)))) ∨
    (¬ (off = 0 ∧ n = 4) ∧ ¬ (0x100 ≤ off ∧ off < 0x200 ∧ n = 1) ∧
      hostWrite off n v s = .fault (.hostProtocol (.accessNotAdmitted off n))) := by
  by_cases h1 : off = 0 ∧ n = 4
  · cases hb : s.isBusy
    · exact .inl ⟨h1.1, h1.2, rfl, by simp [hostWrite, h1, hb]⟩
    · exact .inr (.inl ⟨h1.1, h1.2, rfl, by simp [hostWrite, h1, hb]⟩)
  by_cases h2 : (0x100 ≤ off ∧ off < 0x200) ∧ n = 1
  · cases hb : s.isBusy
    · exact .inr (.inr (.inl ⟨h2.1.1, h2.1.2, h2.2, rfl, by simp [hostWrite, h2, hb, isInOffset]⟩))
    · exact .inr (.inr (.inr (.inl ⟨h2.1.1, h2.1.2, h2.2, rfl, by simp [hostWrite, h2, hb, isInOffset]⟩)))
  · refine .inr (.inr (.inr (.inr ⟨h1, by omega, ?_⟩)))
    simp only [hostWrite, h1, if_false, isInOffset, Bool.and_eq_true, decide_eq_true_eq, h2]

/-! ### A step -/

theorem step_nil {s : State} (h : s.agenda = []) : step s = coreMove s := by
  simp [step, nextEvent, h]

theorem step_cons {s : State} {e : Event} {rest : List Event} (h : s.agenda = e :: rest) :
    step s = handleEvent e { s with agenda := rest } := by
  simp [step, nextEvent, h]

theorem coreMove_busy {s : State} (h : s.isBusy = true) : coreMove s = runCommand s := by
  simp [coreMove, h]

theorem coreMove_not_busy {s : State} (h : s.isBusy = false) : coreMove s = .next s := by
  simp [coreMove, h]

theorem dispatch_ok {s : State} {i : Instr} (h : decode s.lcmd = .ok i) : dispatch s = exec i s := by
  simp [dispatch, h]

theorem dispatch_error {s : State} {e : DecodeError} (h : decode s.lcmd = .error e) :
    dispatch s = .next (raiseError .illegalOp s) := by
  simp [dispatch, h]

theorem runCommand_ok {s : State} {i : Instr} (h : decode s.lcmd = .ok i) : runCommand s = retire (exec i s) := by
  rw [runCommand, dispatch_ok h]

theorem runCommand_error {s : State} {e : DecodeError} (h : decode s.lcmd = .error e) :
    runCommand s = .next (forgetHidden (raiseError .illegalOp s)) := by
  rw [runCommand, dispatch_error h, retire]

/-- Everything the end of an operation can do to its outcome. -/
theorem retire_cases (o : Host.Outcome State Fault Refusal) :
    (∃ t, o = .next t ∧ retire o = .next (forgetHidden t)) ∨ (∃ r, o = .fault r ∧ retire o = .fault r) ∨
      (∃ r, o = .refused r ∧ retire o = .refused r) := by
  cases o with
  | next t => exact .inl ⟨t, rfl, rfl⟩
  | fault r => exact .inr (.inl ⟨r, rfl, rfl⟩)
  | refused r => exact .inr (.inr ⟨r, rfl, rfl⟩)

theorem retire_fault {o : Host.Outcome State Fault Refusal} {r : Fault} : retire o = .fault r ↔ o = .fault r := by
  cases o <;> simp [retire]

theorem retire_refused {o : Host.Outcome State Fault Refusal} {r : Refusal} :
    retire o = .refused r ↔ o = .refused r := by
  cases o <;> simp [retire]

theorem inSlot_forgetHidden (s : State) (k : Nat) : (forgetHidden s).inSlot k = s.inSlot k := rfl

theorem outSlot_forgetHidden (s : State) (k : Nat) : (forgetHidden s).outSlot k = s.outSlot k := rfl

end Sys2Proof.Machine
end

