-- ==== Sys2Proof/Laws/Exec.lean ====
section
/-! SUPPORT. Laws/Exec.lean: each meaning as one run of `runOperation`, and how each operation's rule ends. -/

namespace Sys2Proof.Machine

/-! ### The arms -/

theorem exec_t2b (len : Nat) (s : State) :
    exec (.t2b len) s = runOperation 81 symbolOperand len (t2bBody len) s := by
  simp only [exec, execT2b]
theorem exec_tr2b (len : Nat) (s : State) :
    exec (.tr2b len) s = runOperation 243 tritOperand len (tr2bBody len) s := by
  simp only [exec, execTr2b]
theorem exec_b2t (len : Nat) (s : State) :
    exec (.b2t len) s = runOperation 48 byteOperand len (b2tBody len) s := by
  simp only [exec, execB2t]
theorem exec_b2tr (len : Nat) (s : State) :
    exec (.b2tr len) s = runOperation 48 byteOperand len (b2trBody len) s := by
  simp only [exec, execB2tr]
theorem exec_zlt (len : Nat) (s : State) :
    exec (.zlt len) s = runOperation 48 byteOperand len (zltBody len) s := by
  simp only [exec, execZlt]
theorem exec_l2v (len : Nat) (s : State) :
    exec (.l2v len) s = runOperation 1 symbolOperand len (l2vBody len) s := by
  simp only [exec, execL2v]
theorem exec_v2l (len : Nat) (s : State) :
    exec (.v2l len) s = runOperation 1 valueOperand len (v2lBody len) s := by
  simp only [exec, execV2l]
theorem exec_v2tr (len : Nat) (s : State) :
    exec (.v2tr len) s = runOperation 1 valueOperand len (v2trBody len) s := by
  simp only [exec, execV2tr]
theorem exec_tr2v (len : Nat) (s : State) :
    exec (.tr2v len) s = runOperation 3 tritOperand len (tr2vBody len) s := by
  simp only [exec, execTr2v]

/-! ### How each rule ends -/

/-- How every operation's rule ends: results written by `complete` over a new `V`, `W`, `NZ` and sequencer. -/
def EndsIn (rs : List Byte) (s t : State) : Prop :=
  ∃ v w nz q, t = complete rs { s with v := v, w := w, nz := nz, seq := q }

theorem t2bBody_endsIn (len : Nat) (vs : List Int) (s : State) :
    EndsIn (storeBytes (encodeValues vs)) s (t2bBody len vs s) := by
  refine ⟨tryteBuffer vs, encodeValues vs, (hornerCore vs).2, ⟨0x1, BitVec.ofNat 8 len, 0⟩, ?_⟩
  simp only [t2bBody, finishEncoder, loadSequencer]

theorem tr2bBody_endsIn (len : Nat) (ts : List Int) (s : State) :
    EndsIn (storeBytes (encodeValues (combineTrits ts))) s (tr2bBody len ts s) := by
  refine ⟨tryteBuffer (combineTrits ts), encodeValues (combineTrits ts), (hornerCore (combineTrits ts)).2,
    ⟨0x2, BitVec.ofNat 8 len, 0⟩, ?_⟩
  simp only [tr2bBody, finishEncoder, loadSequencer]

theorem b2tBody_endsIn (len : Nat) (bytes : List Byte) (s : State) :
    EndsIn ((decodeValues bytes).map valueToLetter) s (b2tBody len bytes s) := by
  refine ⟨tryteBuffer (decodeValues bytes), (divideOperand bytes).w, (divideOperand bytes).nz,
    ⟨0x3, BitVec.ofNat 8 len, 80⟩, ?_⟩
  simp only [b2tBody, runDecoder, loadSequencer]

theorem b2trBody_endsIn (len : Nat) (bytes : List Byte) (s : State) :
    EndsIn ((decodeValues bytes).flatMap tritSlots) s (b2trBody len bytes s) := by
  refine ⟨tryteBuffer (decodeValues bytes), (divideOperand bytes).w, (divideOperand bytes).nz,
    ⟨0x4, BitVec.ofNat 8 len, 242⟩, ?_⟩
  simp only [b2trBody, runDecoder, loadSequencer]

theorem zltBody_endsIn (len : Nat) (bytes : List Byte) (s : State) :
    EndsIn (storeBytes (canonInt (loadBytes bytes))) s (zltBody len bytes s) := by
  refine ⟨s.v, canonInt (loadBytes bytes), s.nz, ⟨0x5, BitVec.ofNat 8 len, 0⟩, ?_⟩
  simp only [zltBody, loadSequencer]

theorem l2vBody_endsIn (len : Nat) (xs : List Int) (s : State) :
    EndsIn [slotOfInt (operandAt xs 0)] s (l2vBody len xs s) :=
  ⟨s.v, s.w, s.nz, ⟨0x6, BitVec.ofNat 8 len, 0⟩, rfl⟩

theorem v2lBody_endsIn (len : Nat) (xs : List Int) (s : State) :
    EndsIn [valueToLetter (operandAt xs 0)] s (v2lBody len xs s) :=
  ⟨s.v, s.w, s.nz, ⟨0x7, BitVec.ofNat 8 len, 0⟩, rfl⟩

theorem v2trBody_endsIn (len : Nat) (xs : List Int) (s : State) :
    EndsIn (tritSlots (operandAt xs 0)) s (v2trBody len xs s) :=
  ⟨s.v, s.w, s.nz, ⟨0x8, BitVec.ofNat 8 len, 0⟩, rfl⟩

theorem tr2vBody_endsIn (len : Nat) (xs : List Int) (s : State) :
    EndsIn [slotOfInt (tritTripleToValue (operandAt xs 0) (operandAt xs 1) (operandAt xs 2))] s
      (tr2vBody len xs s) :=
  ⟨s.v, s.w, s.nz, ⟨0x9, BitVec.ofNat 8 len, 0⟩, rfl⟩

theorem length_tritResults (bytes : List Byte) : ((decodeValues bytes).flatMap tritSlots).length = 243 := by
  simp [List.length_flatMap]

/-! ### What a completion leaves alone -/

section
variable {rs : List Byte} {s t : State}

theorem EndsIn.status (h : EndsIn rs s t) :
    t.status = { state := .done, err := .none, expected := 0, errIndex := 0, lastOp := s.status.lastOp } := by
  obtain ⟨v, w, nz, q, rfl⟩ := h; rfl
theorem EndsIn.outLen (h : EndsIn rs s t) : t.outLen = BitVec.ofNat 8 rs.length := by
  obtain ⟨v, w, nz, q, rfl⟩ := h; rfl
theorem EndsIn.mem (h : EndsIn rs s t) : t.mem = s.mem.writeList (outAddr 0) rs := by
  obtain ⟨v, w, nz, q, rfl⟩ := h; rfl
theorem EndsIn.lcmd (h : EndsIn rs s t) : t.lcmd = s.lcmd := by
  obtain ⟨v, w, nz, q, rfl⟩ := h; rfl
theorem EndsIn.agenda (h : EndsIn rs s t) : t.agenda = s.agenda := by
  obtain ⟨v, w, nz, q, rfl⟩ := h; rfl
theorem EndsIn.reply (h : EndsIn rs s t) : t.reply = s.reply := by
  obtain ⟨v, w, nz, q, rfl⟩ := h; rfl
theorem EndsIn.freeReads (h : EndsIn rs s t) : t.freeReads = s.freeReads := by
  obtain ⟨v, w, nz, q, rfl⟩ := h; rfl

theorem EndsIn.retired (h : EndsIn rs s t) : t.retired = s.retired := by
  obtain ⟨v, w, nz, q, rfl⟩ := h; rfl

theorem EndsIn.read (h : EndsIn rs s t) (a : Nat) :
    t.mem.read a = if 0x200 ≤ a ∧ a < 0x200 + rs.length then rs[a - 0x200]? else s.mem.read a := by
  obtain ⟨v, w, nz, q, rfl⟩ := h
  rw [read_complete]

theorem EndsIn.outSlot (h : EndsIn rs s t) (k : Nat) :
    t.outSlot k = if k < rs.length then rs[k]? else s.outSlot k := by
  obtain ⟨v, w, nz, q, rfl⟩ := h
  rw [outSlot_complete]
  rfl

end

end Sys2Proof.Machine
end

