-- ==== Sys2Proof/Laws/Operands.lean ====
section
/-! SUPPORT. Laws/Operands.lean: which slots each operand kind accepts, and as what (R74). -/

namespace Sys2Proof.Machine

open Sys2Proof.Safety

/-- A symbol slot is accepted exactly if it holds a symbol code, as the value of the closed form. -/
theorem symbolOperand_eq (b : Byte) :
    symbolOperand b = if b.toNat = 0x39 ∨ (0x41 ≤ b.toNat ∧ b.toNat ≤ 0x5A) then some (symbolValue b) else none := by
  have h : ∀ x : Fin 256, symbolOperand (BitVec.ofFin x) =
      if (BitVec.ofFin x : Byte).toNat = 0x39 ∨ (0x41 ≤ (BitVec.ofFin x : Byte).toNat ∧
        (BitVec.ofFin x : Byte).toNat ≤ 0x5A) then some (symbolValue (BitVec.ofFin x)) else none := by
    decide +kernel
  exact h b.toFin

theorem tritOperand_eq (b : Byte) :
    tritOperand b = if b.toNat = 0 ∨ b.toNat = 1 ∨ b.toNat = 0xFF then some b.toInt else none := by
  have h : ∀ x : Fin 256, tritOperand (BitVec.ofFin x) =
      if (BitVec.ofFin x : Byte).toNat = 0 ∨ (BitVec.ofFin x : Byte).toNat = 1 ∨
        (BitVec.ofFin x : Byte).toNat = 0xFF then some (BitVec.ofFin x : Byte).toInt else none := by
    decide +kernel
  exact h b.toFin

theorem valueOperand_eq (b : Byte) :
    valueOperand b = if b.toNat ≤ 0x0D ∨ 0xF3 ≤ b.toNat then some b.toInt else none := by
  have h : ∀ x : Fin 256, valueOperand (BitVec.ofFin x) =
      if (BitVec.ofFin x : Byte).toNat ≤ 0x0D ∨ 0xF3 ≤ (BitVec.ofFin x : Byte).toNat then
        some (BitVec.ofFin x : Byte).toInt else none := by
    decide +kernel
  exact h b.toFin

theorem symbolOperand_of_code {b : Byte} (h : SymbolCode b) : symbolOperand b = some (symbolValue b) := by
  rw [symbolOperand_eq]; exact if_pos h
theorem symbolOperand_of_not_code {b : Byte} (h : ¬ SymbolCode b) : symbolOperand b = none := by
  rw [symbolOperand_eq]; exact if_neg h
theorem tritOperand_of_code {b : Byte} (h : TritCode b) : tritOperand b = some b.toInt := by
  rw [tritOperand_eq]; exact if_pos h
theorem tritOperand_of_not_code {b : Byte} (h : ¬ TritCode b) : tritOperand b = none := by
  rw [tritOperand_eq]; exact if_neg h
theorem valueOperand_of_code {b : Byte} (h : ValueCode b) : valueOperand b = some b.toInt := by
  rw [valueOperand_eq]; exact if_pos h
theorem valueOperand_of_not_code {b : Byte} (h : ¬ ValueCode b) : valueOperand b = none := by
  rw [valueOperand_eq]; exact if_neg h
@[simp] theorem byteOperand_eq (b : Byte) : byteOperand b = some b := rfl

/-- The value of a symbol code is a tryte value. -/
theorem isTryte_symbolValue {b : Byte} (h : SymbolCode b) : IsTryte (symbolValue b) := by
  have key : ∀ x : Fin 256, ((BitVec.ofFin x : Byte).toNat = 0x39 ∨ (0x41 ≤ (BitVec.ofFin x : Byte).toNat ∧
      (BitVec.ofFin x : Byte).toNat ≤ 0x5A)) →
      -13 ≤ symbolValue (BitVec.ofFin x) ∧ symbolValue (BitVec.ofFin x) ≤ 13 := by
    decide +kernel
  exact key b.toFin h

/-- The signed value of a trit code is a trit. -/
theorem isTrit_toInt {b : Byte} (h : TritCode b) : IsTrit b.toInt := by
  have key : ∀ x : Fin 256, ((BitVec.ofFin x : Byte).toNat = 0 ∨ (BitVec.ofFin x : Byte).toNat = 1 ∨
      (BitVec.ofFin x : Byte).toNat = 0xFF) → ((BitVec.ofFin x : Byte).toInt = -1 ∨
      (BitVec.ofFin x : Byte).toInt = 0 ∨ (BitVec.ofFin x : Byte).toInt = 1) := by
    decide +kernel
  exact key b.toFin h

/-- The signed value of a tryte-value code is a tryte value. -/
theorem isTryte_toInt {b : Byte} (h : ValueCode b) : IsTryte b.toInt := by
  have key : ∀ x : Fin 256, ((BitVec.ofFin x : Byte).toNat ≤ 0x0D ∨ 0xF3 ≤ (BitVec.ofFin x : Byte).toNat) →
      -13 ≤ (BitVec.ofFin x : Byte).toInt ∧ (BitVec.ofFin x : Byte).toInt ≤ 13 := by
    decide +kernel
  exact key b.toFin h

/-- Each instruction as one run of `runOperation`: the expected length and the kind's validity are those of the table
(R72, R74), and the rule's result has the table's count. -/
theorem exec_shape (i : Instr) : ∃ (α : Type) (element : Byte → Option α) (body : List α → State → State),
    (∀ s, exec i s = runOperation (expectedLen i) element i.len body s) ∧
    (∀ b, (∃ x, element b = some x) ↔ ValidFor i b) ∧
    (∀ xs, ∃ rs : List Byte, rs.length = resultCount i ∧ ∀ s, EndsIn rs s (body xs s)) := by
  have sym : ∀ b, (∃ x, symbolOperand b = some x) ↔ SymbolCode b := fun b =>
    ⟨fun ⟨x, hx⟩ => by_contra (fun h => by rw [symbolOperand_of_not_code h] at hx; cases hx),
      fun h => ⟨_, symbolOperand_of_code h⟩⟩
  have trit : ∀ b, (∃ x, tritOperand b = some x) ↔ TritCode b := fun b =>
    ⟨fun ⟨x, hx⟩ => by_contra (fun h => by rw [tritOperand_of_not_code h] at hx; cases hx),
      fun h => ⟨_, tritOperand_of_code h⟩⟩
  have val : ∀ b, (∃ x, valueOperand b = some x) ↔ ValueCode b := fun b =>
    ⟨fun ⟨x, hx⟩ => by_contra (fun h => by rw [valueOperand_of_not_code h] at hx; cases hx),
      fun h => ⟨_, valueOperand_of_code h⟩⟩
  have byte : ∀ b, (∃ x, byteOperand b = some x) ↔ True := fun b => ⟨fun _ => trivial, fun _ => ⟨b, rfl⟩⟩
  cases i with
  | t2b len =>
    exact ⟨_, symbolOperand, t2bBody len, exec_t2b len, sym, fun xs => ⟨_, length_storeBytes _, t2bBody_endsIn len xs⟩⟩
  | tr2b len =>
    exact ⟨_, tritOperand, tr2bBody len, exec_tr2b len, trit,
      fun xs => ⟨_, length_storeBytes _, tr2bBody_endsIn len xs⟩⟩
  | b2t len =>
    exact ⟨_, byteOperand, b2tBody len, exec_b2t len, byte, fun xs => ⟨_, by simp [resultCount], b2tBody_endsIn len xs⟩⟩
  | b2tr len =>
    exact ⟨_, byteOperand, b2trBody len, exec_b2tr len, byte,
      fun xs => ⟨_, length_tritResults xs, b2trBody_endsIn len xs⟩⟩
  | zlt len =>
    exact ⟨_, byteOperand, zltBody len, exec_zlt len, byte, fun xs => ⟨_, length_storeBytes _, zltBody_endsIn len xs⟩⟩
  | l2v len => exact ⟨_, symbolOperand, l2vBody len, exec_l2v len, sym, fun xs => ⟨_, rfl, l2vBody_endsIn len xs⟩⟩
  | v2l len => exact ⟨_, valueOperand, v2lBody len, exec_v2l len, val, fun xs => ⟨_, rfl, v2lBody_endsIn len xs⟩⟩
  | v2tr len => exact ⟨_, valueOperand, v2trBody len, exec_v2tr len, val, fun xs => ⟨_, rfl, v2trBody_endsIn len xs⟩⟩
  | tr2v len => exact ⟨_, tritOperand, tr2vBody len, exec_tr2v len, trit, fun xs => ⟨_, rfl, tr2vBody_endsIn len xs⟩⟩

/-- Every outcome of every instruction: an error of R203, the unwritten-operand fault of R210(e), or a completion with
the table's number of results. No instruction refuses. -/
theorem exec_outcomes (i : Instr) (s : State) :
    (∃ e, exec i s = .next (raiseError e s) ∧
      (e = .lengthError (expectedLen i) ∨ ∃ k, e = .invalidElement k)) ∨
    (∃ k, exec i s = .fault (.hostProtocol (.unwrittenOperand k))) ∨
    (∃ t rs, exec i s = .next t ∧ rs.length = resultCount i ∧ EndsIn rs s t) := by
  obtain ⟨α, element, body, hexec, -, hbody⟩ := exec_shape i
  rw [hexec s]
  rcases runOperation_cases (expectedLen i) element i.len body s with h | ⟨_, k, _, h⟩ | ⟨_, k, _, h⟩ | ⟨_, xs, _, h⟩
  · exact .inl ⟨_, h.2, .inl rfl⟩
  · exact .inr (.inl ⟨k, h⟩)
  · exact .inl ⟨_, h, .inr ⟨k, rfl⟩⟩
  · obtain ⟨rs, hlen, hends⟩ := hbody xs
    exact .inr (.inr ⟨_, rs, h, hlen, hends s⟩)

end Sys2Proof.Machine
end

