-- ==== Sys2Proof/Laws/PerInstr.lean ====
section
/-! SUPPORT. Laws/PerInstr.lean: for each instruction, what the fields of its command word hold (R70, R72). -/

namespace Sys2Proof.Laws.EncodedFields

/-- The command word of `i` carries its `OP` code, its `LEN`, and 0 in both reserved fields (R70). -/
def Statement (i : Instr) : Prop :=
  i.wf = true →
    opField (encode i) = opcode i ∧ (lenField (encode i)).toNat = i.len ∧
      rsv0Field (encode i) = 0 ∧ rsv1Field (encode i) = 0

theorem all (i : Instr) : Statement i := by
  intro h
  have hlen := (Instr.wf_iff i).1 h
  have hop := toNat_opcode_lt i
  have henc := toNat_encode i
  refine ⟨BitVec.eq_of_toNat_eq ?_, ?_, BitVec.eq_of_toNat_eq ?_, BitVec.eq_of_toNat_eq ?_⟩
  · rw [toNat_opField, henc]; omega
  · rw [toNat_lenField, henc]; omega
  · rw [toNat_rsv0Field, henc]; show _ = 0; omega
  · rw [toNat_rsv1Field, henc]; show _ = 0; omega

theorem t2b (len : Nat) : Statement (.t2b len) := all _
theorem tr2b (len : Nat) : Statement (.tr2b len) := all _
theorem b2t (len : Nat) : Statement (.b2t len) := all _
theorem b2tr (len : Nat) : Statement (.b2tr len) := all _
theorem zlt (len : Nat) : Statement (.zlt len) := all _
theorem l2v (len : Nat) : Statement (.l2v len) := all _
theorem v2l (len : Nat) : Statement (.v2l len) := all _
theorem v2tr (len : Nat) : Statement (.v2tr len) := all _
theorem tr2v (len : Nat) : Statement (.tr2v len) := all _

end Sys2Proof.Laws.EncodedFields
end

