-- ==== Sys2Proof/Tests/Slice0.lean ====
section
/-! SUPPORT. Tests/Slice0.lean: the tests of the model. Expected values come from spec/95_test_vectors.md (each test
names its vector) or are written out from the rule a test names; and for every statement of
Certificates/Slice0/Obligations.lean with hypotheses, a witness that meets them. -/

namespace Sys2Proof.Tests

open Sys2Proof Sys2Proof.Machine Sys2Proof.Safety

set_option Elab.async false

/-! ### Building small states -/

/-- `count` bytes of a number, most significant first. -/
def bytesOf (count n : Nat) : List Byte :=
  (List.range count).map (fun j => BitVec.ofNat 8 (n / 256 ^ (count - 1 - j)))

/-- Cells with these bytes from an offset upward. -/
def cellsFrom (a : Nat) : List Byte → Memory
  | [] => []
  | b :: bs => (a, b) :: cellsFrom (a + 1) bs

/-- The state after reset with these bytes written to `IN[0]` upward. -/
def loaded (bs : List Byte) : State := { State.reset with mem := cellsFrom 0x100 bs }

/-- The same, with the command `c` written and this agenda. -/
def commanded (c : Word) (bs : List Byte) (agenda : List Event) : State :=
  { startCommand c (loaded bs) with agenda := agenda }

/-- The outcome is a next state with this `STATUS`, and the valid result slots hold exactly these bytes. -/
def endsWith (o : Host.Outcome State Fault Refusal) (status : Word) (rs : List Byte) : Bool :=
  match o with
  | .next t => t.status.pack == status && t.outLen.toNat == rs.length &&
      t.mem.filter (fun c => decide (0x200 ≤ c.1)) == cellsFrom 0x200 rs
  | _ => false

/-- One step of the command word `w` on these operands. -/
def runs (w : Nat) (bs : List Byte) (status : Word) (rs : List Byte) : Bool :=
  endsWith (step ((loaded bs).withFetchWord 32 w)) status rs

/-- The state in which the command word `w` runs on these operands. -/
def started (w : Nat) (bs : List Byte) : State := startCommand (BitVec.ofNat 32 (w % 2 ^ 32)) (loaded bs)

/-- One step of the command word `w` on these operands is the meaning of instruction `i` (with the hidden state
forgotten), and it gives this `STATUS` and exactly these results. -/
def Gives (w : Nat) (i : Instr) (bs : List Byte) (status : Word) (rs : List Byte) : Prop :=
  step ((loaded bs).withFetchWord 32 w) = retire (exec i (started w bs)) ∧
    ∃ t, exec i (started w bs) = .next t ∧ t.status.state = .done ∧ t.status.pack = status ∧
      t.outLen.toNat = rs.length ∧ ∀ k, t.outSlot k = rs[k]?

theorem read_cellsFrom (a k : Nat) (bs : List Byte) : (cellsFrom a bs).read (a + k) = bs[k]? := by
  induction bs generalizing a k with
  | nil => rfl
  | cons b bs ih =>
    cases k with
    | zero => simp [cellsFrom, Memory.read]
    | succ k =>
      have := ih (a + 1) k
      rw [show a + 1 + k = a + (k + 1) by omega] at this
      simp [cellsFrom, Memory.read, this]

/-- The loaded operands stand in their slots. -/
theorem operands_loaded (bs : List Byte) : Operands (loaded bs) bs := fun k _ => read_cellsFrom 0x100 k bs

/-- The operands stand in their slots when a command runs. -/
theorem operands_started (w : Nat) (bs : List Byte) (h : bs.length ≤ 256) : Operands (started w bs) bs := by
  intro k hk
  unfold started
  rw [inSlot_startCommand _ _ (by omega)]
  exact operands_loaded bs k hk

/-- A whole step from its parts: the decoded word, the operands read, and the operation's own results. -/
theorem gives_of {α : Type} {w : Nat} {n : Nat} {i : Instr} {element : Byte → Option α}
    {body : List α → State → State} {bs : List Byte} {xs : List α} {st : Word} {rs : List Byte}
    (hdec : decode (BitVec.ofNat 32 (w % 2 ^ 32)) = .ok i)
    (hexec : ∀ s, exec i s = runOperation n element n body s) (hn : bs.length = n) (hcap : n ≤ 256)
    (hv : bs.map element = xs.map some) (hends : ∀ s, EndsIn rs s (body xs s)) (hrs : rs.length < 256)
    (hst : Status.pack ⟨.done, .none, 0, 0, opField (BitVec.ofNat 32 (w % 2 ^ 32))⟩ = st) :
    Gives w i bs st rs := by
  subst hn
  have hops : fetchOperands element (started w bs) 0 bs.length = .elements xs :=
    fetchOperands_of_valid (fun j hj => by rw [Nat.zero_add]; exact operands_started w bs hcap j hj) hv
  have hrun : step ((loaded bs).withFetchWord 32 w) = retire (exec i (started w bs)) :=
    runCommand_ok (s := started w bs) hdec
  have e := hends (started w bs)
  refine ⟨hrun, _, by rw [hexec, runOperation_of_elements hops], by rw [e.status], ?_, ?_, fun k => ?_⟩
  · rw [e.status]; exact hst
  · rw [e.outLen, BitVec.toNat_ofNat]; omega
  · rw [e.outSlot, started, outSlot_startCommand]
    split
    · rfl
    · rw [List.getElem?_eq_none (by omega)]

/-- `T2B` of symbol codes, from the encoder's integer. -/
theorem gives_t2b {bs rs : List Byte} (hn : bs.length = 81)
    (hv : bs.map symbolOperand = (bs.map symbolValue).map some)
    (hr : storeBytes (encodeValues (bs.map symbolValue)) = rs) : Gives 0x5101 (.t2b 81) bs 0x01000002 rs :=
  gives_of (i := .t2b 81) (by decide) (exec_t2b 81) hn (by omega) hv (fun s => hr ▸ t2bBody_endsIn 81 _ s)
    (by rw [← hr, length_storeBytes]; omega) (by decide)

/-- `TR2B` of trit codes. -/
theorem gives_tr2b {bs rs : List Byte} (hn : bs.length = 243)
    (hv : bs.map tritOperand = (bs.map BitVec.toInt).map some)
    (hr : storeBytes (encodeValues (combineTrits (bs.map BitVec.toInt))) = rs) : Gives 0xF302 (.tr2b 243) bs 0x02000002 rs :=
  gives_of (i := .tr2b 243) (by decide) (exec_tr2b 243) hn (by omega) hv (fun s => hr ▸ tr2bBody_endsIn 243 _ s)
    (by rw [← hr, length_storeBytes]; omega) (by decide)

/-- `B2T` of 48 bytes. -/
theorem gives_b2t {bs rs : List Byte} (hn : bs.length = 48) (hr : (decodeValues bs).map valueToLetter = rs) :
    Gives 0x3003 (.b2t 48) bs 0x03000002 rs :=
  gives_of (i := .b2t 48) (by decide) (exec_b2t 48) hn (by omega) (xs := bs) rfl
    (fun s => hr ▸ b2tBody_endsIn 48 bs s) (by rw [← hr, List.length_map, length_decodeValues]; omega) (by decide)

/-- `B2TR` of 48 bytes. -/
theorem gives_b2tr {bs rs : List Byte} (hn : bs.length = 48) (hr : (decodeValues bs).flatMap tritSlots = rs) :
    Gives 0x3004 (.b2tr 48) bs 0x04000002 rs :=
  gives_of (i := .b2tr 48) (by decide) (exec_b2tr 48) hn (by omega) (xs := bs) rfl
    (fun s => hr ▸ b2trBody_endsIn 48 bs s) (by rw [← hr, length_tritResults]; omega) (by decide)

/-! ### Well-formedness: a `LEN` that the 8-bit field cannot hold is refused, for every operation -/

theorem test_wf_refuses_t2b_256 : (Instr.t2b 256).wf = false := by decide
theorem test_wf_refuses_tr2b_256 : (Instr.tr2b 256).wf = false := by decide
theorem test_wf_refuses_b2t_256 : (Instr.b2t 256).wf = false := by decide
theorem test_wf_refuses_b2tr_256 : (Instr.b2tr 256).wf = false := by decide
theorem test_wf_refuses_zlt_256 : (Instr.zlt 256).wf = false := by decide
theorem test_wf_refuses_l2v_256 : (Instr.l2v 256).wf = false := by decide
theorem test_wf_refuses_v2l_256 : (Instr.v2l 256).wf = false := by decide
theorem test_wf_refuses_v2tr_256 : (Instr.v2tr 256).wf = false := by decide
theorem test_wf_refuses_tr2v_256 : (Instr.tr2v 256).wf = false := by decide
theorem test_wf_accepts_255 : (Instr.t2b 255).wf = true := by decide

/-! ### Decoding: words written out field by field from R70 (RSV1, LEN, RSV0, OP) -/

theorem test_decode_t2b : decode 0b00000000000000000101000100000001 = .ok (.t2b 81) := by decide
theorem test_decode_tr2b : decode 0b00000000000000001111001100000010 = .ok (.tr2b 243) := by decide
theorem test_decode_b2t : decode 0b00000000000000000011000000000011 = .ok (.b2t 48) := by decide
theorem test_decode_b2tr : decode 0b00000000000000000011000000000100 = .ok (.b2tr 48) := by decide
theorem test_decode_zlt : decode 0b00000000000000000011000000000101 = .ok (.zlt 48) := by decide
theorem test_decode_l2v : decode 0b00000000000000000000000100000110 = .ok (.l2v 1) := by decide
theorem test_decode_v2l : decode 0b00000000000000000000000100000111 = .ok (.v2l 1) := by decide
theorem test_decode_v2tr : decode 0b00000000000000000000000100001000 = .ok (.v2tr 1) := by decide
theorem test_decode_tr2v : decode 0b00000000000000000000001100001001 = .ok (.tr2v 3) := by decide
theorem test_decode_other_len : decode 0b00000000000000001000000000000001 = .ok (.t2b 128) := by decide
theorem test_decode_op_0 : decode 0b00000000000000000101000100000000 = .error .unassignedOp := by decide
theorem test_decode_op_a : decode 0b00000000000000000101000100001010 = .error .unassignedOp := by decide
theorem test_decode_op_f : decode 0b00000000000000000101000100001111 = .error .unassignedOp := by decide
theorem test_decode_rsv0 : decode 0b00000000000000000101000100010001 = .error .reservedBits := by decide
theorem test_decode_rsv0_high : decode 0b00000000000000000101000110000001 = .error .reservedBits := by decide
theorem test_decode_rsv1 : decode 0b00000000000000010101000100000001 = .error .reservedBits := by decide
theorem test_decode_rsv1_high : decode 0b10000000000000000101000100000001 = .error .reservedBits := by decide
theorem test_encode_tr2b : encode (.tr2b 243) = 0b00000000000000001111001100000010 := by decide
theorem test_tableWord_tr2b : decodeTableWord 32 0x0000F302 = some (.tr2b 243) := by decide
theorem test_tableWord_illegal : decodeTableWord 32 0x0000510A = none := by decide

/-! ### One step of each operation -/

/-- Vector E16 (W1). -/
theorem test_t2b_golden : Gives 0x5101 (.t2b 81)
    (bytesOf 81 0x484850454c4e544e4a494f4b4c59445557394e44554c575048435746525054444955574c5955485157574a5650414b4b474b4f415a464a50514a424c4e4450414c435658474a4c52424653484154463943)
    0x01000002
    (bytesOf 48 0x3f1b9727c967dda4f0ef98032f97483864e0dc9ed391dd5b8bc8133d9ce77fe182fef749de882dace92b655c6bba22df) :=
  gives_t2b rfl (by decide +kernel) (by decide +kernel)

/-- Vector E7: the top tryte 5 becomes -4. -/
theorem test_t2b_top_tryte : Gives 0x5101 (.t2b 81) (List.replicate 80 0x39 ++ [0x45]) 0x01000002
    (bytesOf 48 0xac13a00e86aaf57213884e33dab31bf5f83cba7a3e89f9c50db21ecf11a6dc0fcbac710626a6d50e8f1c0885a5814cfc) :=
  gives_t2b rfl (by decide +kernel) (by decide +kernel)

/-- Vector T5: trit 242 is ignored, trit 240 counts. -/
theorem test_tr2b_last_trit : Gives 0xF302 (.tr2b 243) (List.replicate 240 0x00 ++ [0xFF, 0x00, 0x01]) 0x02000002
    (bytesOf 48 0xeb04e803a1aabd5c84e2138cf6acc6fd7e0f2e9e8fa27e71436c87b3c469b703f2eb1c4189a9b543a3c702216960533f) :=
  gives_tr2b rfl (by decide +kernel) (by decide +kernel)

/-- Vector X9. -/
theorem test_tr2b_invalid_trit : runs 0xF302 (List.replicate 7 0x00 ++ [0x02] ++ List.replicate 235 0x00)
    0x02070033 [] = true := by decide +kernel

/-- Vector D11 (W1). -/
theorem test_b2t_golden : Gives 0x3003 (.b2t 48)
    (bytesOf 48 0xbec15753fa767d98b59de095a962f472f7b4e15da47d6dd987c4608ccd32f8e2231c3201faca0ee2591f11179c816e30)
    0x03000002
    (bytesOf 81 0x444d4a575a54444a544153585a54485a4658465a58574d4e464852544b5746555043514a5845424a434c525a4f4d394c50564a5354434c464c54515444474d4c5655484f564a4842425559464439415858) :=
  gives_b2t rfl (by decide +kernel)

/-- Vector D5: canonicalized before it is decoded. -/
theorem test_b2t_canonicalizes : Gives 0x3003 (.b2t 48)
    (bytesOf 48 0x5e69ebefa87fabdfaa06a805a9f6808b48bbae3679a4c70250979d570c24486e3ade00d91484504f9f007669a5ce8965)
    0x03000002 (List.replicate 80 0x4E ++ [0x57]) :=
  gives_b2t rfl (by decide +kernel)

/-- Vector DT1: trit 1 is the second slot. -/
theorem test_b2tr_three : Gives 0x3004 (.b2tr 48) (bytesOf 48 3) 0x04000002 ([0x00, 0x01] ++ List.replicate 241 0x00) :=
  gives_b2tr rfl (by decide +kernel)

/-- Vector DT4. -/
theorem test_b2tr_canonicalizes : Gives 0x3004 (.b2tr 48)
    (bytesOf 48 0x5e69ebefa87fabdfaa06a805a9f6808b48bbae3679a4c70250979d570c24486e3ade00d91484504f9f007669a5ce8965)
    0x04000002 (List.replicate 242 0xFF ++ [0x00]) :=
  gives_b2tr rfl (by decide +kernel)

/-- Vector Z3: the first integer past halfThree. -/
theorem test_zlt_above : runs 0x3005
    (bytesOf 48 0x5e69ebefa87fabdfaa06a805a9f6808b48bbae3679a4c70250979d570c24486e3ade00d91484504f9f007669a5ce8965)
    0x05000002
    (bytesOf 48 0xa19614105780542055f957fa56097f74b74451c9865b38fdaf6862a8f3dbb791c521ff26eb7bafb060ff89965a31769c)
    = true := by decide +kernel

/-- Vector Z8: the trit243 pattern, negative in the signed view, stays. -/
theorem test_zlt_signed_view : runs 0x3005
    (bytesOf 48 0xbcd3d7df50ff57bf540d500b53ed011691775c6cf3498e04a12f3aae184890dc75bc01b22908a09f3e00ecd34b9d12c9)
    0x05000002
    (bytesOf 48 0xbcd3d7df50ff57bf540d500b53ed011691775c6cf3498e04a12f3aae184890dc75bc01b22908a09f3e00ecd34b9d12c9)
    = true := by decide +kernel

/-- Row `N` of section 2.1. -/
theorem test_l2v_n : runs 0x0106 [0x4E] 0x06000002 [0xF3] = true := by decide +kernel
/-- A lower-case letter is no symbol (section 2.1). -/
theorem test_l2v_lower_case : runs 0x0106 [0x61] 0x06000033 [] = true := by decide +kernel
/-- Row `M` of section 2.1. -/
theorem test_v2l_m : runs 0x0107 [0x0D] 0x07000002 [0x4D] = true := by decide +kernel
/-- 14 is no tryte value (section 2.1). -/
theorem test_v2l_out_of_range : runs 0x0107 [0x0E] 0x07000033 [] = true := by decide +kernel
/-- Row `P` of section 2.1: t0 first. -/
theorem test_v2tr_p : runs 0x0108 [0xF5] 0x08000002 [0x01, 0xFF, 0xFF] = true := by decide +kernel
/-- Row `B` of section 2.1. -/
theorem test_v2tr_b : runs 0x0108 [0x02] 0x08000002 [0xFF, 0x01, 0x00] = true := by decide +kernel
/-- Row `E` of section 2.1. -/
theorem test_tr2v_e : runs 0x0309 [0xFF, 0xFF, 0x01] 0x09000002 [0x05] = true := by decide +kernel
/-- The invalid slot's index is recorded (section 2.1). -/
theorem test_tr2v_invalid : runs 0x0309 [0xFF, 0xFF, 0xFE] 0x09020033 [] = true := by decide +kernel

/-! ### The shared checks, the micro-operations and the host's accesses -/

/-- Vector X5: an illegal word wins over a wrong length. -/
theorem test_illegal_wins : runs 0x500A (List.replicate 81 0x39) 0x0A000023 [] = true := by decide +kernel
/-- Vector X4. -/
theorem test_illegal_rsv1 : runs 0x15101 (List.replicate 81 0x39) 0x01000023 [] = true := by decide +kernel
/-- Vector X8: a wrong length wins over an invalid element. -/
theorem test_length_wins : runs 0x5001 (List.replicate 5 0x39 ++ [0x61] ++ List.replicate 75 0x39) 0x01005113 [] = true := by
  decide +kernel
/-- Vector X7: the lowest invalid slot is recorded. -/
theorem test_lowest_index : runs 0x5101
    (List.replicate 5 0x39 ++ [0x61, 0x39, 0x00] ++ List.replicate 73 0x39) 0x01050033 [] = true := by decide +kernel

/-- Section 2.2: the carry of AddSmall ripples through three words. -/
theorem test_addSmall_ripples :
    addSmall (wordsOfInt 0xffffffffffffffffffffffff) 26 = (wordsOfInt 0x1000000000000000000000019, 3) := by
  decide +kernel
/-- Section 2.2: AddSmall past word 11. -/
theorem test_addSmall_wraps : addSmall (wordsOfInt (-1)) 1 = (wordsOfInt 0, 11) := by decide +kernel
/-- Section 2.2: MulRadix grows the bound. -/
theorem test_mulRadix_grows : mulRadix (wordsOfInt 0x6f32f1ef8b18a2bc3cea59789c79d441) 3 =
    (wordsOfInt 0xbba5f8443ab9929da6cb76fb880d962db, 4) := by decide +kernel
/-- Section 2.2: DivRadix shrinks the bound. -/
theorem test_divRadix_shrinks :
    divRadix (wordsOfInt 0x100000000) 1 = { quotient := wordsOfInt 0x97b425e, rem := 22, nz := 0 } := by
  decide +kernel

/-- The state after reset with one host access next. -/
def accessed (a : HostAccess) : State := { State.reset with agenda := [.host a] }

/-- The outcome is this fault of R210. -/
def misuse (o : Host.Outcome State Fault Refusal) (r : ProtocolReason) : Bool :=
  match o with
  | .fault f => f == .hostProtocol r
  | _ => false

/-- Section 2.6: a read of CMD. -/
theorem test_read_cmd : misuse (step (accessed (.read 0x000 4))) (.accessNotAdmitted 0x000 4) = true := by
  decide +kernel
/-- Section 2.6: a 2-byte read at 0x004. -/
theorem test_read_width : misuse (step (accessed (.read 0x004 2))) (.accessNotAdmitted 0x004 2) = true := by
  decide +kernel
/-- Section 2.6: OUT[0] after reset. -/
theorem test_read_result_after_reset : misuse (step (accessed (.read 0x200 1))) (.invalidResultRead 0) = true := by
  decide +kernel
/-- Section 2.6: T2B on slots nothing has written. -/
theorem test_unwritten_operand :
    misuse (step (State.reset.withFetchWord 32 0x5101)) (.unwrittenOperand 0) = true := by decide +kernel

/-! ### Witnesses: one for every statement that has hypotheses, and for every clause of one that has several -/

theorem test_witness_DecodeInvertsEncode : (Instr.t2b 0).wf = true ∧ (Instr.tr2v 255).wf = true := by decide
theorem test_witness_DecodedWordIsItsOwnEncoding :
    decode 0x00000009 = .ok (.tr2v 0) ∧ decode 0x0000FF01 = .ok (.t2b 255) := by decide
/-- Each disjunct of the rule alone, at a boundary; and two words that meet none. -/
theorem test_witness_DecoderRejectsExactlyIllegalWords :
    (decode 0x00000000 = .error .unassignedOp ∧ decode 0x0000000A = .error .unassignedOp ∧
      decode 0x00000011 = .error .reservedBits ∧ decode 0x00010001 = .error .reservedBits) ∧
    (decode 0x00000001 = .ok (.t2b 0) ∧ decode 0x00000009 = .ok (.tr2v 0)) := by decide

theorem test_witness_StepRunsTheLatchedCommand :
    ((commanded 0x0106 [0x4E] []).status.state = .busy ∧ CoreMovesNext (commanded 0x0106 [0x4E] []) ∧
      decode (commanded 0x0106 [0x4E] []).lcmd = .ok (.l2v 1)) ∧
    ((commanded 0x0106 [0x4E] [.coreRun]).status.state = .busy ∧
      CoreMovesNext (commanded 0x0106 [0x4E] [.coreRun]) ∧
      decode (commanded 0x0106 [0x4E] [.coreRun]).lcmd = .ok (.l2v 1)) :=
  ⟨⟨rfl, .inl rfl, by decide⟩, ⟨rfl, .inr ⟨[], rfl⟩, by decide⟩⟩

theorem test_witness_IllegalCommandEndsWithIllegalOp :
    (commanded 0x000A [] [.coreRun]).status.state = .busy ∧ CoreMovesNext (commanded 0x000A [] [.coreRun]) ∧
      0xA ≤ (commanded 0x000A [] [.coreRun]).lcmd.toNat % 16 ∧
      (commanded 0x0000 [] [.coreRun]).lcmd.toNat % 16 = 0 ∧
      (commanded 0x0011 [] [.coreRun]).lcmd.toNat / 16 % 16 ≠ 0 ∧
      (commanded 0x10001 [] [.coreRun]).lcmd.toNat / 65536 ≠ 0 :=
  ⟨rfl, .inr ⟨[], rfl⟩, by decide, by decide, by decide, by decide⟩

/-- Every reason of R210 has a state that meets it. -/
theorem test_witness_StepFaultsExactlyOnHostMisuse :
    Misuse (accessed (.read 0x300 1)) (.accessNotAdmitted 0x300 1) ∧
    Misuse (accessed (.write 0x200 1 0)) (.accessNotAdmitted 0x200 1) ∧
    Misuse (commanded 0x0106 [] [.host (.write 0x000 4 0)]) .commandWhileBusy ∧
    Misuse (commanded 0x0106 [] [.host (.write 0x1FF 1 0)]) (.operandWriteWhileBusy 255) ∧
    Misuse (accessed (.read 0x2FF 1)) (.invalidResultRead 255) ∧
    Misuse (commanded 0x0309 [0x00, 0x01] []) (.unwrittenOperand 2) :=
  ⟨.readNotAdmitted _ _ [] rfl (by unfold ReadAdmitted; omega),
    .writeNotAdmitted _ _ 0 [] rfl (by unfold WriteAdmitted; omega),
    .commandWhileBusy 0 [] rfl rfl,
    .operandWriteWhileBusy 255 0 [] (by omega) rfl rfl,
    .invalidResultRead 255 [] (by omega) rfl (by decide),
    .unwrittenOperand (.tr2v 3) 2 (.inl rfl) rfl (by decide) rfl (by decide)
      (fun j hj => by
        have : j = 0 ∨ j = 1 := by omega
        rcases this with rfl | rfl
        · exact ⟨0x00, rfl, .inl rfl⟩
        · exact ⟨0x01, rfl, .inr (.inl rfl)⟩)
      (by decide)⟩

/-- Both cases of the statement: a run that ends, and one that host misuse stops. -/
theorem test_witness_EveryOperationEndsWithTheAgenda :
    endsWith (Host.Core.run Sys2Proof.core 1 (commanded 0x0106 [0x4E] [])) 0x06000002 [0xF3] = true ∧
    misuse (Host.Core.run Sys2Proof.core 2 (accessed (.read 0x200 1))) (.invalidResultRead 0) = true := by
  decide +kernel

theorem test_witness_CoreHoldsItsStateBetweenOperations :
    State.reset.status.state ≠ .busy ∧ CoreMovesNext State.reset ∧
      CoreMovesNext { State.reset with agenda := [.coreRun] } :=
  ⟨by decide, .inl rfl, .inr ⟨[], rfl⟩⟩

theorem test_witness_ResetAbandonsARunningOperation :
    (commanded 0x5101 [] [.reset, .coreRun]).agenda = .reset :: [.coreRun] ∧
      (commanded 0x5101 [] [.reset, .coreRun]).status.state = .busy := ⟨rfl, rfl⟩

/-- A busy state that meets the invariant. -/
theorem inv_commanded (c : Word) (a : List Event) (bs : List Byte) (h : (cellsFrom 0x100 bs).wf)
    (hs : ∀ x ∈ cellsFrom 0x100 bs, 0x100 ≤ x.1 ∧ x.1 < 0x200) : Inv (commanded c bs a) := by
  have hm : (commanded c bs a).mem = cellsFrom 0x100 bs := by
    show (cellsFrom 0x100 bs).filter _ = _
    exact List.filter_eq_self.2 (fun x hx => decide_eq_true (hs x hx).2)
  refine ⟨by rw [hm]; exact h, by rw [hm]; exact fun x hx => ⟨(hs x hx).1, by have := (hs x hx).2; omega⟩, ?_,
    fun _ => rfl, nofun, ⟨nofun, fun _ => rfl⟩, fun _ => rfl, nofun, fun _ => rfl, nofun, fun _ => rfl, Nat.zero_le _⟩
  intro k _
  refine ⟨fun hk => ?_, fun hk => nomatch hk.1⟩
  have : (commanded c bs a).outSlot k = none := by
    unfold State.outSlot
    show ((cellsFrom 0x100 bs).dropOut).read (outAddr k) = none
    rw [Memory.read_dropOut, if_neg (by unfold outAddr; omega)]
  rw [State.outValid, this] at hk
  cases hk

theorem inv_busy : Inv (commanded 0x0106 [0x4E] []) :=
  inv_commanded _ _ _ (by decide) (by decide)

/-- One step of the operation that `inv_busy`'s state runs. -/
theorem test_witness_StepKeepsTheInvariant :
    Inv (commanded 0x0106 [0x4E] []) ∧ ∃ t, step (commanded 0x0106 [0x4E] []) = .next t ∧ t.status.state = .done := by
  refine ⟨inv_busy, ?_⟩
  cases h : step (commanded 0x0106 [0x4E] []) with
  | next t =>
    have key : endsWith (step (commanded 0x0106 [0x4E] [])) 0x06000002 [0xF3] = true := by decide +kernel
    have done : (match step (commanded 0x0106 [0x4E] []) with
      | .next t => t.status.state == .done
      | _ => false) = true := by decide +kernel
    rw [h] at done
    exact ⟨t, rfl, by simpa using done⟩
  | fault r =>
    have key : endsWith (step (commanded 0x0106 [0x4E] [])) 0x06000002 [0xF3] = true := by decide +kernel
    rw [h] at key; cases key
  | refused r =>
    have key : endsWith (step (commanded 0x0106 [0x4E] [])) 0x06000002 [0xF3] = true := by decide +kernel
    rw [h] at key; cases key

/-- Both ends of both ranges, and an operation and a step that run from such a state. -/
theorem test_witness_OperationsKeepTheDatapathInRange :
    TryteBufferInRange (commanded 0x0106 [0x4E] []) ∧
      TryteBufferInRange { State.reset with v := (Vector.replicate 81 0).set 0 (-13) |>.set 80 13 } ∧
      State.reset.nz ≤ 11 ∧ { State.reset with nz := 11 }.nz ≤ 11 ∧
      endsWith (exec (.l2v 1) (commanded 0x0106 [0x4E] [])) 0x06000002 [0xF3] = true ∧
      endsWith (step (commanded 0x0106 [0x4E] [])) 0x06000002 [0xF3] = true := by
  unfold TryteBufferInRange IsTryte
  decide +kernel

/-- States that differ in all the hidden state, between operations and while one runs. -/
theorem test_witness_HiddenStateReachesNoHost :
    SameToHost State.reset
      { State.reset with
        v := Vector.replicate 81 13, w := Vector.replicate 12 1, nz := 11,
        seq := { op := 1, len := 81, index := 80 }, lcmd := 0x5101 } ∧
    SameToHost (commanded 0x0106 [0x4E] [])
      { commanded 0x0106 [0x4E] [] with w := Vector.replicate 12 1, nz := 11 } :=
  ⟨⟨rfl, rfl, rfl, rfl, rfl, rfl, nofun⟩, ⟨rfl, rfl, rfl, rfl, rfl, rfl, fun _ => rfl⟩⟩

theorem test_witness_CommandWriteStartsAnOperation :
    (accessed (.write 0x000 4 0x5101)).agenda = .host (.write 0x000 4 0x5101) :: [] ∧
      (accessed (.write 0x000 4 0x5101)).status.state ≠ .busy := ⟨rfl, by decide⟩

theorem test_witness_OperandWriteStoresTheByte :
    ((accessed (.write (0x100 + 0) 1 0x4E)).agenda = .host (.write (0x100 + 0) 1 0x4E) :: [] ∧
      (accessed (.write (0x100 + 0) 1 0x4E)).status.state ≠ .busy) ∧
    ((accessed (.write (0x100 + 255) 1 0x4E)).agenda = .host (.write (0x100 + 255) 1 0x4E) :: [] ∧
      (accessed (.write (0x100 + 255) 1 0x4E)).status.state ≠ .busy) := ⟨⟨rfl, by decide⟩, ⟨rfl, by decide⟩⟩

/-- Both clauses; the first in a state whose STATUS fields are all nonzero, and every code of `STATE` and `ERR`. -/
theorem test_witness_RegisterReadsReturnTheFields :
    (accessed (.read 0x004 4)).agenda = .host (.read 0x004 4) :: [] ∧
      (accessed (.read 0x008 4)).agenda = .host (.read 0x008 4) :: [] ∧
      Status.pack { state := .error, err := .invalidElement, expected := 0x51, errIndex := 5, lastOp := 9 } =
        0x09055133 ∧
      Status.pack { state := .idle, err := .none, expected := 0, errIndex := 0, lastOp := 0 } = 0x00000000 ∧
      Status.pack { state := .busy, err := .none, expected := 0, errIndex := 0, lastOp := 9 } = 0x09000001 ∧
      Status.pack { state := .done, err := .none, expected := 0, errIndex := 0, lastOp := 9 } = 0x09000002 ∧
      Status.pack { state := .error, err := .lengthError, expected := 3, errIndex := 0, lastOp := 9 } = 0x09000313 ∧
      Status.pack { state := .error, err := .illegalOp, expected := 0, errIndex := 0, lastOp := 0xF } = 0x0F000023 :=
  ⟨rfl, rfl, by decide, by decide, by decide, by decide, by decide, by decide⟩

/-- Both clauses, at the first and the last slot. -/
theorem test_witness_SlotReadsReturnTheByte :
    (State.inSlot { State.reset with agenda := [.host (.read (0x100 + 0) 1)], mem := [(0x100, 0x4E)] } 0 =
        some 0x4E ∧
      State.inSlot { State.reset with agenda := [.host (.read (0x100 + 255) 1)], mem := [(0x1FF, 0x4E)] } 255 =
        some 0x4E) ∧
    (State.outSlot { State.reset with agenda := [.host (.read (0x200 + 0) 1)], mem := [(0x200, 0x4E)] } 0 =
        some 0x4E ∧
      State.outSlot { State.reset with agenda := [.host (.read (0x200 + 255) 1)], mem := [(0x2FF, 0x4E)] } 255 =
        some 0x4E) := by decide

theorem test_witness_UnwrittenSlotReadReturnsAnyValue :
    ((accessed (.read (0x100 + 0) 1)).agenda = .host (.read (0x100 + 0) 1) :: [] ∧
      (accessed (.read (0x100 + 0) 1)).inWritten 0 = false) ∧
    ((accessed (.read (0x100 + 255) 1)).agenda = .host (.read (0x100 + 255) 1) :: [] ∧
      (accessed (.read (0x100 + 255) 1)).inWritten 255 = false) := ⟨⟨rfl, by decide⟩, ⟨rfl, by decide⟩⟩

theorem test_witness_RunningOperationShowsNothing :
    Inv (commanded 0x0106 [0x4E] []) ∧ (commanded 0x0106 [0x4E] []).status.state = .busy := ⟨inv_busy, rfl⟩

theorem test_witness_WrongLengthEndsWithLengthError :
    (Instr.t2b 80).len ≠ expectedLen (.t2b 80) ∧ (Instr.t2b 82).len ≠ expectedLen (.t2b 82) ∧
      (Instr.tr2b 0).len ≠ expectedLen (.tr2b 0) := by decide

/-- The first slot, and the last slot of the longest operand. -/
theorem test_witness_FirstInvalidSlotEndsWithInvalidElement :
    ((Instr.l2v 1).len = expectedLen (.l2v 1) ∧ 0 < expectedLen (.l2v 1) ∧
      (loaded [0x40]).inSlot 0 = some 0x40 ∧ ¬ ValidFor (.l2v 1) 0x40) ∧
    ((Instr.tr2b 243).len = expectedLen (.tr2b 243) ∧ 242 < expectedLen (.tr2b 243) ∧
      (∀ j, j < 242 → ∃ c, (loaded (List.replicate 242 0x00 ++ [0x02])).inSlot j = some c ∧
        ValidFor (.tr2b 243) c) ∧
      (loaded (List.replicate 242 0x00 ++ [0x02])).inSlot 242 = some 0x02 ∧ ¬ ValidFor (.tr2b 243) 0x02) := by
  refine ⟨⟨rfl, by decide, by decide, by unfold ValidFor SymbolCode; decide⟩,
    ⟨rfl, by decide, fun j hj => ⟨0x00, ?_, .inl rfl⟩, by decide +kernel, by unfold ValidFor TritCode; decide⟩⟩
  rw [operands_loaded _ j (by rw [List.length_append, List.length_replicate]; omega),
    List.getElem?_append_left (by rw [List.length_replicate]; exact hj),
    List.getElem?_replicate, if_pos hj]

theorem test_witness_FirstUnwrittenSlotFaults :
    ((Instr.l2v 1).len = expectedLen (.l2v 1) ∧ 0 < expectedLen (.l2v 1) ∧ (loaded []).inWritten 0 = false) ∧
    ((Instr.tr2b 243).len = expectedLen (.tr2b 243) ∧ 242 < expectedLen (.tr2b 243) ∧
      (∀ j, j < 242 → ∃ c, (loaded (List.replicate 242 0xFF)).inSlot j = some c ∧ ValidFor (.tr2b 243) c) ∧
      (loaded (List.replicate 242 0xFF)).inWritten 242 = false) := by
  refine ⟨⟨rfl, by decide, by decide⟩, ⟨rfl, by decide, fun j hj => ⟨0xFF, ?_, .inr (.inr rfl)⟩, by decide +kernel⟩⟩
  rw [operands_loaded _ j (by rw [List.length_replicate]; exact hj), List.getElem?_replicate, if_pos hj]

/-- Two states that differ past the operands. -/
theorem test_witness_OperationReadsOnlyItsOperands :
    (∀ k, k < (Instr.l2v 1).len → (loaded [0x4E, 0x00]).inSlot k = (loaded [0x4E, 0xFF]).inSlot k) ∧
      (loaded [0x4E, 0x00]).status.lastOp = (loaded [0x4E, 0xFF]).status.lastOp ∧
      (loaded [0x4E, 0x00]).inSlot 1 ≠ (loaded [0x4E, 0xFF]).inSlot 1 :=
  ⟨fun k hk => by
    have : k = 0 := by simp only [Instr.len] at hk; omega
    subst this; rfl, rfl, by decide⟩

/-- Both ends of both ranges of symbol codes. -/
theorem test_witness_LetterToValueCompletes :
    ((loaded [0x39]).inSlot 0 = some 0x39 ∧ SymbolCode 0x39) ∧ ((loaded [0x41]).inSlot 0 = some 0x41 ∧ SymbolCode 0x41) ∧
      ((loaded [0x5A]).inSlot 0 = some 0x5A ∧ SymbolCode 0x5A) := by unfold SymbolCode; decide
theorem test_witness_ValueToLetterCompletes :
    ((loaded [0x0D]).inSlot 0 = some 0x0D ∧ ValueCode 0x0D) ∧ ((loaded [0xF3]).inSlot 0 = some 0xF3 ∧ ValueCode 0xF3) := by
  unfold ValueCode; decide
theorem test_witness_ValueToTritTripleCompletes :
    ((loaded [0x00]).inSlot 0 = some 0x00 ∧ ValueCode 0x00) ∧ ((loaded [0xFF]).inSlot 0 = some 0xFF ∧ ValueCode 0xFF) := by
  unfold ValueCode; decide
theorem test_witness_TritTripleToValueCompletes :
    Operands (loaded [0xFF, 0x00, 0x01]) [0xFF, 0x00, 0x01] ∧ TritCode 0xFF ∧ TritCode 0x00 ∧ TritCode 0x01 :=
  ⟨operands_loaded _, .inr (.inr rfl), .inl rfl, .inr (.inl rfl)⟩
theorem test_witness_ZeroLastTritCompletes :
    (List.replicate 48 (0x80 : Byte)).length = 48 ∧
      Operands (loaded (List.replicate 48 0x80)) (List.replicate 48 0x80) := ⟨rfl, operands_loaded _⟩

theorem symbols_replicate {n : Nat} {c : Byte} (hc : SymbolCode c) : ∀ b ∈ List.replicate n c, SymbolCode b :=
  fun _ hb => List.eq_of_mem_replicate hb ▸ hc

/-- The top tryte is the `M` that is canonicalized (vector E12). -/
theorem test_witness_TrytesToBytesCompletes :
    (List.replicate 81 (0x4D : Byte)).length = 81 ∧
      Operands (loaded (List.replicate 81 0x4D)) (List.replicate 81 0x4D) ∧
      (∀ b ∈ List.replicate 81 (0x4D : Byte), SymbolCode b) :=
  ⟨rfl, operands_loaded _, symbols_replicate (.inr (by decide))⟩
theorem test_witness_TritsToBytesCompletes :
    (List.replicate 243 (0xFF : Byte)).length = 243 ∧
      Operands (loaded (List.replicate 243 0xFF)) (List.replicate 243 0xFF) ∧
      (∀ b ∈ List.replicate 243 (0xFF : Byte), TritCode b) :=
  ⟨rfl, operands_loaded _, fun _ hb => List.eq_of_mem_replicate hb ▸ .inr (.inr rfl)⟩
theorem test_witness_BytesToTrytesCompletes :
    (List.replicate 48 (0xFF : Byte)).length = 48 ∧
      Operands (loaded (List.replicate 48 0xFF)) (List.replicate 48 0xFF) := ⟨rfl, operands_loaded _⟩
theorem test_witness_BytesToTritsCompletes :
    (bytesOf 48 3).length = 48 ∧ Operands (loaded (bytesOf 48 3)) (bytesOf 48 3) := ⟨rfl, operands_loaded _⟩

/-- Vector E1: 81 times `9` encode as 48 zero bytes. -/
theorem gives_zero : Gives 0x5101 (.t2b 81) (List.replicate 81 0x39) 0x01000002 (List.replicate 48 0x00) :=
  gives_t2b rfl (by decide +kernel) (by decide +kernel)

theorem test_witness_DecodingAnEncodingReturnsTheSymbols :
    (List.replicate 81 (0x39 : Byte)).length = 81 ∧
      Operands (started 0x5101 (List.replicate 81 0x39)) (List.replicate 81 0x39) ∧
      (∀ b ∈ List.replicate 81 (0x39 : Byte), SymbolCode b) ∧
      -4 ≤ symbolValue ((List.replicate 81 (0x39 : Byte)).getD 80 0) ∧
      symbolValue ((List.replicate 81 (0x39 : Byte)).getD 80 0) ≤ 4 ∧
      (List.replicate 48 (0x00 : Byte)).length = 48 ∧
      (∃ t, exec (.t2b 81) (started 0x5101 (List.replicate 81 0x39)) = .next t ∧
        ∀ k, k < 48 → t.outSlot k = (List.replicate 48 (0x00 : Byte))[k]?) ∧
      Operands (loaded (List.replicate 48 0x00)) (List.replicate 48 0x00) := by
  obtain ⟨-, t, ht, -, -, -, hs⟩ := gives_zero
  exact ⟨rfl, operands_started _ _ (by decide), symbols_replicate (.inl rfl), by decide +kernel, by decide +kernel,
    rfl, ⟨t, ht, fun k _ => hs k⟩, operands_loaded _⟩

/-- Vector D3: 48 times 0xFF decode as `Z`, then 80 times `9`; the operand is canonical, so the last clause applies. -/
theorem test_witness_EncodingADecodingCanonicalizes :
    (List.replicate 48 (0xFF : Byte)).length = 48 ∧
      Operands (started 0x3003 (List.replicate 48 0xFF)) (List.replicate 48 0xFF) ∧
      (0x5A :: List.replicate 80 (0x39 : Byte)).length = 81 ∧
      (∃ t, exec (.b2t 48) (started 0x3003 (List.replicate 48 0xFF)) = .next t ∧
        ∀ k, k < 81 → t.outSlot k = (0x5A :: List.replicate 80 (0x39 : Byte))[k]?) ∧
      Operands (loaded (0x5A :: List.replicate 80 0x39)) (0x5A :: List.replicate 80 0x39) ∧
      -half ≤ bytesVal (List.replicate 48 0xFF) ∧ bytesVal (List.replicate 48 0xFF) ≤ half := by
  obtain ⟨-, t, ht, -, -, -, hs⟩ :=
    gives_b2t (bs := List.replicate 48 0xFF) (rs := 0x5A :: List.replicate 80 0x39) rfl (by decide +kernel)
  exact ⟨rfl, operands_started _ _ (by decide), rfl, ⟨t, ht, fun k _ => hs k⟩, operands_loaded _, by decide +kernel,
    by decide +kernel⟩

/-- 81 times `M` and their trits, all +1. -/
theorem test_witness_TritAndTryteEncodersAgree :
    (List.replicate 81 (0x4D : Byte)).length = 81 ∧
      Operands (loaded (List.replicate 81 0x4D)) (List.replicate 81 0x4D) ∧
      (∀ b ∈ List.replicate 81 (0x4D : Byte), SymbolCode b) ∧
      (List.replicate 243 (0x01 : Byte)).length = 243 ∧
      Operands (loaded (List.replicate 243 0x01)) (List.replicate 243 0x01) ∧
      (∀ b ∈ List.replicate 243 (0x01 : Byte), TritCode b) ∧
      (∀ i, i < 81 → ((List.replicate 243 (0x01 : Byte)).getD (3 * i) 0).toInt
        + 3 * ((List.replicate 243 (0x01 : Byte)).getD (3 * i + 1) 0).toInt
        + 9 * ((List.replicate 243 (0x01 : Byte)).getD (3 * i + 2) 0).toInt =
          symbolValue ((List.replicate 81 (0x4D : Byte)).getD i 0)) :=
  ⟨rfl, operands_loaded _, symbols_replicate (.inr (by decide)), rfl, operands_loaded _,
    fun _ hb => List.eq_of_mem_replicate hb ▸ .inr (.inl rfl), by decide +kernel⟩

/-- Each of the five operations ends DONE somewhere (the statement's hypotheses, clause by clause). -/
theorem test_witness_ResultsAreAlwaysCanonical :
    (∃ t, exec (.t2b 81) (started 0x5101 (List.replicate 81 0x39)) = .next t ∧ t.status.state = .done) ∧
    (∃ t, exec (.tr2b 243) (started 0xF302 (List.replicate 243 0x00)) = .next t ∧ t.status.state = .done) ∧
    (∃ t, exec (.zlt 48) (started 0x3005 (List.replicate 48 0xFF)) = .next t ∧ t.status.state = .done) ∧
    (∃ t, exec (.b2t 48) (started 0x3003 (List.replicate 48 0xFF)) = .next t ∧ t.status.state = .done) ∧
    (∃ t, exec (.b2tr 48) (started 0x3004 (List.replicate 48 0xFF)) = .next t ∧ t.status.state = .done) := by
  obtain ⟨-, t1, h1, d1, -⟩ := gives_zero
  obtain ⟨-, t2, h2, d2, -⟩ := gives_tr2b (bs := List.replicate 243 0x00) rfl (by decide +kernel) rfl
  obtain ⟨-, t3, h3, d3, -⟩ := gives_of (w := 0x3005) (i := .zlt 48) (bs := List.replicate 48 0xFF) (by decide)
    (exec_zlt 48) rfl (by omega) rfl (zltBody_endsIn 48 _) (by rw [length_storeBytes]; omega) rfl
  obtain ⟨-, t4, h4, d4, -⟩ := gives_b2t (bs := List.replicate 48 0xFF) rfl rfl
  obtain ⟨-, t5, h5, d5, -⟩ := gives_b2tr (bs := List.replicate 48 0xFF) rfl rfl
  exact ⟨⟨t1, h1, d1⟩, ⟨t2, h2, d2⟩, ⟨t3, h3, d3⟩, ⟨t4, h4, d4⟩, ⟨t5, h5, d5⟩⟩

theorem test_witness_LetterToValueIsTheClosedForm :
    (SymbolCode 0x39 ∧ SymbolCode 0x41 ∧ SymbolCode 0x5A) ∧
      (¬ SymbolCode 0x38 ∧ ¬ SymbolCode 0x3A ∧ ¬ SymbolCode 0x40 ∧ ¬ SymbolCode 0x5B) := by
  unfold SymbolCode; decide
theorem test_witness_ValueFunctionsAreTheClosedForms : IsTryte (-13) ∧ IsTryte 0 ∧ IsTryte 13 := by
  unfold IsTryte; decide
theorem test_witness_LookupFunctionsAreMutuallyInverse :
    (IsTryte (-13) ∧ IsTryte 13) ∧ letterToValue 0x4E = some (-13) ∧ letterToValue 0x4D = some 13 := by
  unfold IsTryte; decide
theorem test_witness_ByteOrderConversionIsBigEndian : (List.replicate 48 (0xFF : Byte)).length = 48 := rfl
/-- Every outcome of the comparison, and both signs. -/
theorem test_witness_SignTestAndCompareAreSigned :
    isNegative trit243 = true ∧ isNegative halfThree = false ∧ compareSigned negHalfThree halfThree = .lt ∧
      compareSigned halfThree halfThree = .eq ∧ compareSigned halfThree trit243 = .gt := by decide +kernel
theorem test_witness_AddSmallAddsAndBoundsItsWrites :
    2 ^ 32 - 1 < 2 ^ 32 ∧ (addSmall (wordsOfInt 0) 26).2 < 1 ∧ (addSmall (wordsOfInt 0xffffffff) 1).2 = 1 ∧
      (addSmall (wordsOfInt (-1)) (2 ^ 32 - 1)).2 = 11 := by decide +kernel

/-- The bound 0 and the bound 11. -/
theorem bounded_ends : BoundedBy (wordsOfInt 1) 0 ∧ BoundedBy trit243 11 := by unfold BoundedBy; decide +kernel
theorem test_witness_MulRadixMultipliesBy27 :
    (0 ≤ 11 ∧ BoundedBy (wordsOfInt 1) 0) ∧ (11 ≤ 11 ∧ BoundedBy trit243 11) :=
  ⟨⟨by decide, bounded_ends.1⟩, ⟨by decide, bounded_ends.2⟩⟩
theorem test_witness_DivRadixDividesBy27 :
    (0 ≤ 11 ∧ BoundedBy (wordsOfInt 1) 0) ∧ (11 ≤ 11 ∧ BoundedBy trit243 11) :=
  ⟨⟨by decide, bounded_ends.1⟩, ⟨by decide, bounded_ends.2⟩⟩
theorem test_witness_BoundedStepsAgreeWithFullWidth :
    (0 ≤ 11 ∧ BoundedBy (wordsOfInt 1) 0) ∧ (11 ≤ 11 ∧ BoundedBy trit243 11) :=
  ⟨⟨by decide, bounded_ends.1⟩, ⟨by decide, bounded_ends.2⟩⟩
theorem test_witness_StartingBoundDoesNotMatter :
    highestNonzero (wordsOfInt 1) ≤ 0 ∧ highestNonzero (wordsOfInt 1) ≤ 11 ∧ highestNonzero trit243 ≤ 11 := by
  decide +kernel
/-- The values 13 and -13 (t2 is 1 and -1), and 4 (t2 is 0). -/
theorem test_witness_ZeroLastTritValueDropsTheTopTrit :
    (IsTrit 1 ∧ IsTrit (-1) ∧ IsTrit 0) ∧ (13 : Int) = 1 + 3 * 1 + 9 * 1 ∧ (-13 : Int) = -1 + 3 * -1 + 9 * -1 ∧
      (4 : Int) = 1 + 3 * 1 + 9 * 0 := by unfold IsTrit; decide
/-- The second clause at both ends of the canonical range. -/
theorem test_witness_CanonIntRangeAndFixedPoints :
    (-half ≤ s384 negHalfThree ∧ s384 negHalfThree ≤ half) ∧ (-half ≤ s384 halfThree ∧ s384 halfThree ≤ half) := by
  decide +kernel
/-- The top tryte 5 over zeros: its value is past halfThree, and fits the signed view. -/
theorem test_witness_TwoCanonicalizationsAgree :
    (List.replicate 80 (0 : Int) ++ [5]).length = 81 ∧ (∀ v ∈ List.replicate 80 (0 : Int) ++ [5], IsTryte v) ∧
      s384 (wordsOfInt (trytesVal (List.replicate 80 0 ++ [5]))) = trytesVal (List.replicate 80 0 ++ [5]) ∧
      half < trytesVal (List.replicate 80 0 ++ [5]) := by
  unfold IsTryte
  decide +kernel
theorem test_witness_HornerCoreBuildsTheBiasedSum :
    ((List.replicate 81 (13 : Int)).length = 81 ∧ (∀ v ∈ List.replicate 81 (13 : Int), IsTryte v)) ∧
    ((List.replicate 81 (-13 : Int)).length = 81 ∧ (∀ v ∈ List.replicate 81 (-13 : Int), IsTryte v)) :=
  ⟨⟨rfl, fun _ hv => List.eq_of_mem_replicate hv ▸ (by unfold IsTryte; decide)⟩,
    ⟨rfl, fun _ hv => List.eq_of_mem_replicate hv ▸ (by unfold IsTryte; decide)⟩⟩
theorem test_witness_DivisionLoopExtractsTheDigits : (List.replicate 48 (0xFF : Byte)).length = 48 := rfl
/-- A platform of two cores. -/
theorem test_witness_CoresOfAPlatformAreIndependent :
    (match Platform.stepCore 1 { cores := [State.reset, commanded 0x0106 [0x4E] []] } with
      | .next q => q.cores[0]? == some State.reset && (q.cores[1]?.map (fun t => t.status.state)) == some .done
      | _ => false) = true := by decide +kernel

end Sys2Proof.Tests
end

section
/-! Datapath facts: what one division by the radix (R130) and the loops of the encoder and the decoder do to the
NZ bound (R33), to the value of `W` and to the range of the digits (R31). -/

namespace Sys2Proof.Machine

open Sys2Proof.Safety

/-! ### The NZ bound as a fact about the words above it -/

theorem limbs_eq_zero {l : List Word} (h : ∀ x ∈ l, x = 0) : limbs l = 0 := by
  induction l with
  | nil => rfl
  | cons w ws ih =>
    rw [limbs_cons, h w List.mem_cons_self, ih fun x hx => h x (List.mem_cons_of_mem _ hx)]
    rfl

theorem boundedBy_iff_drop (w : Words) (nz : Nat) : BoundedBy w nz ↔ ∀ x ∈ w.toList.drop (nz + 1), x = 0 := by
  constructor
  · intro h x hx
    obtain ⟨j, hj, rfl⟩ := List.mem_drop_iff_getElem.1 hx
    rw [length_toList_words] at hj
    simpa using h (nz + 1 + j) (by omega) (by omega)
  · intro h j hj hlt
    refine h _ (List.mem_drop_iff_getElem.2 ⟨j - (nz + 1), by rw [length_toList_words]; omega, ?_⟩)
    simp only [Vector.getElem_toList, show nz + 1 + (j - (nz + 1)) = j by omega]

/-- Under the NZ bound the value of `W` is that of its words up to the bound. -/
theorem u384_eq_limbs_take {w : Words} {nz : Nat} (h : BoundedBy w nz) :
    u384 w = limbs (w.toList.take (nz + 1)) := by
  rw [u384, ← List.take_append_drop (nz + 1) w.toList, limbs_append,
    limbs_eq_zero ((boundedBy_iff_drop w nz).1 h), List.take_append_drop, Nat.mul_zero, Nat.add_zero]

/-! ### Division by the radix -/

theorem length_take_words {w : Words} {nz : Nat} (hnz : nz ≤ 11) : (w.toList.take (nz + 1)).length = nz + 1 := by
  rw [List.length_take, length_toList_words]
  omega

theorem toList_divRadix_quotient {w : Words} {nz : Nat} (hnz : nz ≤ 11) :
    (divRadix w nz).quotient.toList = (divLoop (w.toList.take (nz + 1))).1 ++ w.toList.drop (nz + 1) := by
  refine toList_wordsOfList ?_
  rw [List.length_append, length_divLoop, length_take_words hnz, List.length_drop, length_toList_words]
  omega

theorem divRadix_nz (w : Words) (nz : Nat) :
    (divRadix w nz).nz = if (divRadix w nz).quotient.toList.getD nz 0 = 0 ∧ 0 < nz then nz - 1 else nz := rfl

theorem divRadix_nz_le (w : Words) (nz : Nat) : (divRadix w nz).nz ≤ nz := by
  rw [divRadix_nz]
  split <;> omega

theorem divRadix_rem_lt (w : Words) (nz : Nat) : (divRadix w nz).rem < 27 := divLoop_rem_lt _

/-- The words above the bound are not divided, so they stay 0. -/
theorem boundedBy_divRadix_quotient {w : Words} {nz : Nat} (hnz : nz ≤ 11) (h : BoundedBy w nz) :
    BoundedBy (divRadix w nz).quotient nz := by
  have hlen : (divLoop (w.toList.take (nz + 1))).1.length = nz + 1 := by
    rw [length_divLoop, length_take_words hnz]
  rw [boundedBy_iff_drop, toList_divRadix_quotient hnz, List.drop_left' hlen]
  exact (boundedBy_iff_drop w nz).1 h

/-- The division keeps the NZ invariant of R33: the bound falls by one only where the word at it became 0. -/
theorem boundedBy_divRadix {w : Words} {nz : Nat} (hnz : nz ≤ 11) (h : BoundedBy w nz) :
    BoundedBy (divRadix w nz).quotient (divRadix w nz).nz := by
  have above := boundedBy_divRadix_quotient hnz h
  rw [divRadix_nz]
  split
  · next hzero =>
    obtain ⟨hzero, hpos⟩ := hzero
    intro j hj hlt
    rcases (show j = nz ∨ nz < j by omega) with rfl | hgt
    · simpa [List.getD_eq_getElem?_getD, hj] using hzero
    · exact above j hj hgt
  · exact above

theorem divRadix_value {w : Words} {nz : Nat} (hnz : nz ≤ 11) (h : BoundedBy w nz) :
    27 * u384 (divRadix w nz).quotient + (divRadix w nz).rem = u384 w := by
  have hdiv := divLoop_value (w.toList.take (nz + 1))
  have hquot : u384 (divRadix w nz).quotient = limbs (divLoop (w.toList.take (nz + 1))).1 := by
    rw [u384, toList_divRadix_quotient hnz, limbs_append, limbs_eq_zero ((boundedBy_iff_drop w nz).1 h), Nat.mul_zero,
      Nat.add_zero]
  rw [hquot, u384_eq_limbs_take h, ← hdiv]
  rfl

theorem u384_divRadix_quotient {w : Words} {nz : Nat} (hnz : nz ≤ 11) (h : BoundedBy w nz) :
    u384 (divRadix w nz).quotient = u384 w / 27 := by
  have := divRadix_value hnz h
  have := divRadix_rem_lt w nz
  omega

/-! ### The starting bound of the decoder (R173) -/

theorem highestNonzeroLoop_lt {l : List Word} (h : l ≠ []) : highestNonzeroLoop l < l.length := by
  induction l with
  | nil => exact absurd rfl h
  | cons w ws ih =>
    rw [highestNonzeroLoop, List.length_cons]
    split
    · omega
    · next hall =>
      have := ih fun hnil => hall (by rw [hnil]; rfl)
      omega

theorem highestNonzeroLoop_above (l : List Word) : ∀ x ∈ l.drop (highestNonzeroLoop l + 1), x = 0 := by
  induction l with
  | nil => exact fun x hx => nomatch hx
  | cons w ws ih =>
    rw [highestNonzeroLoop]
    split
    · next hall =>
      intro x hx
      simpa using List.all_eq_true.1 hall x hx
    · exact ih

theorem highestNonzero_le (w : Words) : highestNonzero w ≤ 11 := by
  have hne : w.toList ≠ [] := fun h => by simpa [h] using length_toList_words w
  have hlt := highestNonzeroLoop_lt hne
  rw [length_toList_words] at hlt
  exact Nat.le_of_lt_succ hlt

theorem boundedBy_highestNonzero (w : Words) : BoundedBy w (highestNonzero w) :=
  (boundedBy_iff_drop w _).2 (highestNonzeroLoop_above w.toList)

/-! ### The division loop (R173) and the top tryte (R174) -/

theorem divisionLoop_nz_le (n : Nat) (w : Words) (nz : Nat) : (divisionLoop n w nz).nz ≤ nz := by
  induction n generalizing w nz with
  | zero => exact le_refl nz
  | succ n ih => exact (ih _ _).trans (divRadix_nz_le w nz)

theorem u384_divisionLoop (n : Nat) {w : Words} {nz : Nat} (hnz : nz ≤ 11) (h : BoundedBy w nz) :
    u384 (divisionLoop n w nz).w = u384 w / 27 ^ n := by
  induction n generalizing w nz with
  | zero => rw [Nat.pow_zero, Nat.div_one]; rfl
  | succ n ih =>
    calc u384 (divisionLoop (n + 1) w nz).w
        = u384 (divisionLoop n (divRadix w nz).quotient (divRadix w nz).nz).w := rfl
      _ = u384 (divRadix w nz).quotient / 27 ^ n := ih ((divRadix_nz_le w nz).trans hnz) (boundedBy_divRadix hnz h)
      _ = u384 w / 27 ^ (n + 1) := by
        rw [u384_divRadix_quotient hnz h, Nat.div_div_eq_div_mul, ← Nat.pow_succ']

theorem isTryte_divisionLoop_digits (n : Nat) (w : Words) (nz : Nat) :
    ∀ v ∈ (divisionLoop n w nz).digits, IsTryte v := by
  induction n generalizing w nz with
  | zero => exact fun v hv => nomatch hv
  | succ n ih =>
    intro v hv
    rcases List.mem_cons.1 hv with rfl | hv
    · have := divRadix_rem_lt w nz
      unfold IsTryte halfTryte
      omega
    · exact ih _ _ v hv

theorem u384_divideOperand_w (bytes : List Byte) :
    u384 (divideOperand bytes).w = u384 (biasedOperand bytes) / 27 ^ 80 := by
  rw [divideOperand]
  exact u384_divisionLoop 80 (highestNonzero_le _) (boundedBy_highestNonzero _)

theorem divideOperand_nz_le (bytes : List Byte) : (divideOperand bytes).nz ≤ 11 := by
  rw [divideOperand]
  exact (divisionLoop_nz_le _ _ _).trans (highestNonzero_le _)

/-- 80 divisions bring every 384-bit value below the radix, whatever the operand: 2^384 < 13 * 27^80. -/
theorem u384_divideOperand_w_lt (bytes : List Byte) : u384 (divideOperand bytes).w < 13 := by
  have hpow : (2 : Nat) ^ 384 < 27 ^ 80 * 13 := by decide +kernel
  rw [u384_divideOperand_w]
  exact Nat.div_lt_of_lt_mul ((u384_lt _).trans hpow)

theorem isTryte_topTryte {w : Words} (h : u384 w < 13) : IsTryte (topTryte w) := by
  unfold topTryte zeroLastTritValue IsTryte halfTryte
  split_ifs <;> omega

/-- The decoder fills `V` with tryte values (R173, R174). -/
theorem isTryte_decodeValues (bytes : List Byte) : ∀ v ∈ decodeValues bytes, IsTryte v := by
  intro v hv
  rcases List.mem_append.1 hv with hdigit | htop
  · rw [divideOperand] at hdigit
    exact isTryte_divisionLoop_digits _ _ _ v hdigit
  · rw [List.mem_singleton.1 htop]
    exact isTryte_topTryte (u384_divideOperand_w_lt bytes)

/-! ### The front end and the Horner core of the encoder (R152, R153) -/

theorem isTryte_tritTripleToValue {t0 t1 t2 : Int} (h0 : IsTrit t0) (h1 : IsTrit t1) (h2 : IsTrit t2) :
    IsTryte (tritTripleToValue t0 t1 t2) := by
  unfold IsTrit at h0 h1 h2
  unfold IsTryte tritTripleToValue
  omega

theorem isTryte_combineTrits {ts : List Int} (h : ∀ t ∈ ts, IsTrit t) : ∀ v ∈ combineTrits ts, IsTryte v := by
  induction ts using combineTrits.induct with
  | case1 t0 t1 t2 rest ih =>
    simp only [List.forall_mem_cons] at h
    obtain ⟨h0, h1, h2, hrest⟩ := h
    rw [combineTrits]
    exact List.forall_mem_cons.2 ⟨isTryte_tritTripleToValue h0 h1 h2, ih hrest⟩
  | case2 ts hshort =>
    rw [combineTrits.eq_2 ts hshort]
    exact fun v hv => nomatch hv

/-- A buffer filled from tryte values holds tryte values; what the list does not reach is 0. -/
theorem isTryte_tryteBuffer {vs : List Int} (h : ∀ v ∈ vs, IsTryte v) :
    ∀ v ∈ (tryteBuffer vs).toList, IsTryte v := by
  intro v hv
  obtain ⟨i, hi⟩ : ∃ i : Fin 81, vs.getD i.val 0 = v := by simpa [tryteBuffer] using hv
  rw [← hi, List.getD_eq_getElem?_getD]
  cases hget : vs[i.val]? with
  | none => exact ⟨by decide, by decide⟩
  | some x => exact h x (List.mem_of_getElem? hget)

theorem mulRadix_nz_le (w : Words) {nz : Nat} (h : nz ≤ 11) : (mulRadix w nz).2 ≤ 11 := by
  unfold mulRadix
  dsimp only
  split
  · next hgrow => exact hgrow.2
  · exact h

theorem addSmall_index_le (w : Words) (n : Nat) : (addSmall w n).2 ≤ 11 := by
  have hne : w.toList ≠ [] := fun h => by simpa [h] using length_toList_words w
  have hlt := addSmallLoop_index_lt w.toList n hne
  rw [length_toList_words] at hlt
  exact Nat.le_of_lt_succ hlt

theorem hornerLoop_nz_le (vs : List Int) {acc : Words × Nat} (h : acc.2 ≤ 11) : (hornerLoop vs acc).2 ≤ 11 := by
  induction vs generalizing acc with
  | nil => exact h
  | cons v vs ih =>
    rw [hornerLoop]
    apply ih
    dsimp only
    split
    · exact addSmall_index_le _ _
    · exact mulRadix_nz_le _ h

theorem hornerCore_nz_le (vs : List Int) : (hornerCore vs).2 ≤ 11 := by
  rw [hornerCore]
  exact hornerLoop_nz_le _ (Nat.zero_le 11)

end Sys2Proof.Machine
end

section
/-! What one operation and one step can do: an inversion of `runOperation` and of `exec` on one state, the agreement
of `exec` on two states with the same operands, and everything one step can make of a state. -/

namespace Sys2Proof.Machine

open Sys2Proof.Safety

/-! ### The outcomes of an operation -/

/-- A run of `runOperation` that goes on raised an error or ran the body on elements its kind accepts. -/
theorem runOperation_next {α : Type} {expected len : Nat} {element : Byte → Option α}
    {body : List α → State → State} {s t : State} (h : runOperation expected element len body s = .next t) :
    (∃ e, t = raiseError e s) ∨ ∃ xs, (∀ x ∈ xs, ∃ b, element b = some x) ∧ t = body xs s := by
  rcases runOperation_cases expected element len body s with
    ⟨-, hrun⟩ | ⟨-, k, -, hrun⟩ | ⟨-, k, -, hrun⟩ | ⟨-, xs, hfetch, hrun⟩ <;> rw [hrun] at h <;> cases h
  · exact .inl ⟨_, rfl⟩
  · exact .inl ⟨_, rfl⟩
  · refine .inr ⟨xs, fun x hx => ?_, rfl⟩
    obtain ⟨hlen, hall⟩ := fetchOperands_elements hfetch
    obtain ⟨j, hj, rfl⟩ := List.mem_iff_getElem.1 hx
    obtain ⟨b, y, -, hb, hy⟩ := hall j (hlen ▸ hj)
    rw [List.getElem?_eq_getElem hj] at hy
    exact ⟨b, hb.trans hy.symm⟩

/-- On two states whose slots below `LEN` agree, an instruction ends alike: the same error, the same fault, or a
completion with the same results. -/
theorem exec_agree (i : Instr) {s t : State} (h : ∀ k, k < i.len → s.inSlot k = t.inSlot k) :
    (∃ e, exec i s = .next (raiseError e s) ∧ exec i t = .next (raiseError e t)) ∨
    (∃ r, exec i s = .fault r ∧ exec i t = .fault r) ∨
    (∃ s' t' rs, exec i s = .next s' ∧ exec i t = .next t' ∧ rs.length = resultCount i ∧
      EndsIn rs s s' ∧ EndsIn rs t t') := by
  obtain ⟨α, element, body, hexec, -, hbody⟩ := exec_shape i
  rw [hexec s, hexec t]
  by_cases hlen : i.len = expectedLen i
  · have hfetch : fetchOperands element t 0 (expectedLen i) = fetchOperands element s 0 (expectedLen i) :=
      fetchOperands_congr element fun j hj => by rw [Nat.zero_add, h j (hlen ▸ hj)]
    rw [hlen]
    cases hs : fetchOperands element s 0 (expectedLen i) with
    | unwritten k =>
      exact .inr (.inl ⟨_, runOperation_of_unwritten hs, runOperation_of_unwritten (hfetch.trans hs)⟩)
    | invalid k =>
      exact .inl ⟨_, runOperation_of_invalid hs, runOperation_of_invalid (hfetch.trans hs)⟩
    | elements xs =>
      obtain ⟨rs, hcount, hends⟩ := hbody xs
      exact .inr (.inr ⟨_, _, rs, runOperation_of_elements hs, runOperation_of_elements (hfetch.trans hs), hcount,
        hends s, hends t⟩)
  · exact .inl ⟨_, runOperation_wrong_length hlen, runOperation_wrong_length hlen⟩

/-! ### The outcomes of a step -/

theorem isBusy_iff (s : State) : s.isBusy = true ↔ s.status.state = .busy := by
  simp [State.isBusy]

theorem isBusy_eq_false_iff (s : State) : s.isBusy = false ↔ s.status.state ≠ .busy := by
  simp [State.isBusy]

/-- A step handles the next event, which is the core's move when the agenda has run out (log entry 1). -/
theorem step_eq_handleEvent (s : State) :
    step s = handleEvent (s.agenda.headD .coreRun) (popped s) := by
  obtain ⟨status, outLen, lcmd, mem, v, w, nz, seq, agenda, reply, freeReads, retired⟩ := s
  cases agenda <;> rfl

/-- Everything one step can make of the state `u` that is left when its event is off the agenda (R20, R234). -/
inductive StepEffect (u : State) : State → Prop
  /-- The core moves while no operation runs (R216). -/
  | hold (idle : u.status.state ≠ .busy) : StepEffect u u
  /-- An operation ends with an error (R203); a length recorded is one of the table's (R201). -/
  | fails (busy : u.status.state = .busy) (e : CoreError)
      (recorded : ∀ n, e = .lengthError n → ∃ i, n = expectedLen i) : StepEffect u (forgetHidden (raiseError e u))
  /-- An operation ends with results (R206). -/
  | completes (busy : u.status.state = .busy) (i : Instr) (rs : List Byte) (t : State)
      (count : rs.length = resultCount i) (ends : EndsIn rs u t) : StepEffect u (forgetHidden t)
  /-- The reset input (R230). -/
  | resets : StepEffect u (applyReset u)
  /-- A host reads a register or a slot: the reply and the counter of the free values alone change (R56). -/
  | reads (r : Reply) (n : Nat) : StepEffect u { u with reply := r, freeReads := n }
  /-- A host writes a command (R71). -/
  | command (idle : u.status.state ≠ .busy) (c : Word) : StepEffect u (startCommand c u)
  /-- A host writes an operand slot (R54). -/
  | operand (idle : u.status.state ≠ .busy) (k : Nat) (slot : k < 256) (b : Byte) :
      StepEffect u { u with mem := u.mem.write (inAddr k) b }

theorem runCommand_effect {u t : State} (busy : u.status.state = .busy) (h : runCommand u = .next t) :
    StepEffect u t := by
  cases hdec : decode u.lcmd with
  | error e =>
    rw [runCommand_error hdec] at h
    cases h
    exact .fails busy .illegalOp nofun
  | ok i =>
    rw [runCommand_ok hdec] at h
    rcases exec_outcomes i u with ⟨e, hexec, hcause⟩ | ⟨k, hexec⟩ | ⟨v, rs, hexec, hcount, hends⟩ <;>
      rw [hexec] at h <;> cases h
    · refine .fails busy e fun n hn => ?_
      rcases hcause with rfl | ⟨k, rfl⟩ <;> cases hn
      exact ⟨i, rfl⟩
    · exact .completes busy i rs v hcount hends

theorem coreMove_effect {u t : State} (h : coreMove u = .next t) : StepEffect u t := by
  cases hb : u.isBusy with
  | true =>
    rw [coreMove_busy hb] at h
    exact runCommand_effect ((isBusy_iff u).1 hb) h
  | false =>
    rw [coreMove_not_busy hb] at h
    cases h
    exact .hold ((isBusy_eq_false_iff u).1 hb)

theorem readInSlot_effect (off : Nat) (u : State) : StepEffect u (readInSlot off u) := by
  unfold readInSlot
  split
  · exact .reads _ u.freeReads
  · exact .reads _ _

theorem hostRead_effect {off n : Nat} {u t : State} (h : hostRead off n u = .next t) : StepEffect u t := by
  rcases hostRead_cases off n u with ⟨-, -, hr⟩ | ⟨-, -, hr⟩ | ⟨-, -, -, hr⟩ | ⟨-, -, -, b, -, hr⟩ |
    ⟨-, -, -, -, hr⟩ | ⟨-, -, -, hr⟩ <;> rw [hr] at h <;> cases h
  · exact .reads _ u.freeReads
  · exact .reads _ u.freeReads
  · exact readInSlot_effect off u
  · exact .reads _ u.freeReads

theorem hostWrite_effect {off n : Nat} {v : Word} {u t : State} (h : hostWrite off n v u = .next t) :
    StepEffect u t := by
  rcases hostWrite_cases off n v u with ⟨-, -, hb, hw⟩ | ⟨-, -, -, hw⟩ | ⟨hlow, hhigh, -, hb, hw⟩ |
    ⟨-, -, -, -, hw⟩ | ⟨-, -, hw⟩ <;> rw [hw] at h <;> cases h
  · exact .command ((isBusy_eq_false_iff u).1 hb) v
  · obtain ⟨k, rfl⟩ : ∃ k, off = inAddr k := ⟨off - 0x100, by unfold inAddr; omega⟩
    exact .operand ((isBusy_eq_false_iff u).1 hb) k (by unfold inAddr at hhigh; omega) _

/-- The inversion of a step that goes on. -/
theorem step_effect {s t : State} (h : step s = .next t) : StepEffect (popped s) t := by
  rw [step_eq_handleEvent] at h
  cases hev : s.agenda.headD .coreRun with
  | host a =>
    rw [hev] at h
    cases a with
    | read off n => exact hostRead_effect h
    | write off n v => exact hostWrite_effect h
  | coreRun => rw [hev] at h; exact coreMove_effect h
  | reset => rw [hev] at h; cases h; exact .resets

end Sys2Proof.Machine
end

section
/-! The ranges of `V` and `NZ` (R31, R33): no operation and no step leaves them. -/

namespace Sys2Proof.Machine

open Sys2Proof.Safety

/-- From `s` to `t` both ranges of the datapath are kept. -/
structure KeepsRanges (s t : State) : Prop where
  v : TryteBufferInRange s → TryteBufferInRange t
  nz : s.nz ≤ 11 → t.nz ≤ 11

theorem KeepsRanges.of_untouched {s t : State} (hv : t.v = s.v) (hnz : t.nz = s.nz) : KeepsRanges s t :=
  ⟨fun h => by unfold TryteBufferInRange; rw [hv]; exact h, fun h => hnz ▸ h⟩

theorem KeepsRanges.of_filled {s t : State} {vs : List Int} (hvs : ∀ v ∈ vs, IsTryte v) (hv : t.v = tryteBuffer vs)
    (hnz : t.nz ≤ 11) : KeepsRanges s t :=
  ⟨fun _ => by unfold TryteBufferInRange; rw [hv]; exact isTryte_tryteBuffer hvs, fun _ => hnz⟩

/-- An operation keeps the ranges if its rule does on elements its kind accepts: an error touches neither. -/
theorem runOperation_keepsRanges {α : Type} {expected len : Nat} {element : Byte → Option α}
    {body : List α → State → State} {s t : State}
    (hbody : ∀ xs, (∀ x ∈ xs, ∃ b, element b = some x) → KeepsRanges s (body xs s))
    (h : runOperation expected element len body s = .next t) : KeepsRanges s t := by
  obtain ⟨e, rfl⟩ | ⟨xs, hxs, rfl⟩ := runOperation_next h
  · exact .of_untouched rfl rfl
  · exact hbody xs hxs

theorem isTryte_of_symbolOperand {b : Byte} {v : Int} (h : symbolOperand b = some v) : IsTryte v := by
  by_cases hb : SymbolCode b
  · rw [symbolOperand_of_code hb] at h
    cases h
    exact isTryte_symbolValue hb
  · rw [symbolOperand_of_not_code hb] at h
    cases h

theorem isTrit_of_tritOperand {b : Byte} {v : Int} (h : tritOperand b = some v) : IsTrit v := by
  by_cases hb : TritCode b
  · rw [tritOperand_of_code hb] at h
    cases h
    exact isTrit_toInt hb
  · rw [tritOperand_of_not_code hb] at h
    cases h

theorem finishEncoder_keepsRanges {vs : List Int} {s u : State} (hvs : ∀ v ∈ vs, IsTryte v) :
    KeepsRanges s (finishEncoder vs u) :=
  .of_filled hvs (by simp only [finishEncoder, complete_v])
    (by simp only [finishEncoder, complete_nz]; exact hornerCore_nz_le vs)

theorem complete_runDecoder_keepsRanges (rs bytes : List Byte) (s u : State) :
    KeepsRanges s (complete rs (runDecoder bytes u)) :=
  .of_filled (isTryte_decodeValues bytes) (by rw [complete_v, runDecoder_v])
    (by rw [complete_nz, runDecoder_nz]; exact divideOperand_nz_le bytes)

theorem t2bBody_keepsRanges (len : Nat) {vs : List Int} (s : State)
    (h : ∀ v ∈ vs, ∃ b, symbolOperand b = some v) : KeepsRanges s (t2bBody len vs s) := by
  rw [t2bBody]
  refine finishEncoder_keepsRanges fun v hv => ?_
  obtain ⟨b, hb⟩ := h v hv
  exact isTryte_of_symbolOperand hb

theorem tr2bBody_keepsRanges (len : Nat) {ts : List Int} (s : State)
    (h : ∀ t ∈ ts, ∃ b, tritOperand b = some t) : KeepsRanges s (tr2bBody len ts s) := by
  rw [tr2bBody]
  refine finishEncoder_keepsRanges (isTryte_combineTrits fun t ht => ?_)
  obtain ⟨b, hb⟩ := h t ht
  exact isTrit_of_tritOperand hb

theorem b2tBody_keepsRanges (len : Nat) (bytes : List Byte) (s : State) : KeepsRanges s (b2tBody len bytes s) := by
  rw [b2tBody]
  exact complete_runDecoder_keepsRanges _ _ _ _

theorem b2trBody_keepsRanges (len : Nat) (bytes : List Byte) (s : State) : KeepsRanges s (b2trBody len bytes s) := by
  rw [b2trBody]
  exact complete_runDecoder_keepsRanges _ _ _ _

/-- `V` and `NZ` are written by the encoder and the decoder alone; the other five operations leave them (R37). -/
theorem exec_keepsRanges {i : Instr} {s t : State} (h : exec i s = .next t) : KeepsRanges s t := by
  cases i with
  | t2b len => rw [exec_t2b] at h; exact runOperation_keepsRanges (fun _ hvs => t2bBody_keepsRanges len s hvs) h
  | tr2b len => rw [exec_tr2b] at h; exact runOperation_keepsRanges (fun _ hts => tr2bBody_keepsRanges len s hts) h
  | b2t len => rw [exec_b2t] at h; exact runOperation_keepsRanges (fun bs _ => b2tBody_keepsRanges len bs s) h
  | b2tr len => rw [exec_b2tr] at h; exact runOperation_keepsRanges (fun bs _ => b2trBody_keepsRanges len bs s) h
  | zlt len => rw [exec_zlt] at h; exact runOperation_keepsRanges (fun _ _ => .of_untouched rfl rfl) h
  | l2v len => rw [exec_l2v] at h; exact runOperation_keepsRanges (fun _ _ => .of_untouched rfl rfl) h
  | v2l len => rw [exec_v2l] at h; exact runOperation_keepsRanges (fun _ _ => .of_untouched rfl rfl) h
  | v2tr len => rw [exec_v2tr] at h; exact runOperation_keepsRanges (fun _ _ => .of_untouched rfl rfl) h
  | tr2v len => rw [exec_tr2v] at h; exact runOperation_keepsRanges (fun _ _ => .of_untouched rfl rfl) h

/-- The free values an operation leaves in `V` are tryte values (log entry 6). -/
theorem tryteBufferInRange_forgetHidden (s : State) : TryteBufferInRange (forgetHidden s) := by
  intro v hv
  obtain ⟨i, rfl⟩ : ∃ i, ((Config.deadDigit s.retired i).val : Int) - 13 = v := by simpa using hv
  have := (Config.deadDigit s.retired i).isLt
  unfold IsTryte
  omega

theorem tryteBufferInRange_reset : TryteBufferInRange State.reset := by
  intro v hv
  rw [reset_v, Vector.toList_replicate] at hv
  rw [List.eq_of_mem_replicate hv]
  exact ⟨by decide, by decide⟩

theorem StepEffect.keeps_tryteBufferInRange {u t : State} (h : StepEffect u t) (hu : TryteBufferInRange u) :
    TryteBufferInRange t := by
  cases h with
  | hold => exact hu
  | fails => exact tryteBufferInRange_forgetHidden _
  | completes => exact tryteBufferInRange_forgetHidden _
  | resets => exact tryteBufferInRange_reset
  | reads => exact hu
  | command => exact hu
  | operand => exact hu

/-- Settles O14: the Horner core and the division loop keep NZ, the front ends and the digits keep `V`, and a step
keeps `V` by its inversion. -/
theorem operationsKeepTheDatapathInRange : Obligations.OperationsKeepTheDatapathInRange :=
  ⟨fun _ _ _ hs h => (exec_keepsRanges h).v hs, fun _ _ _ hs h => (exec_keepsRanges h).nz hs,
    fun _ _ hs h => (step_effect h).keeps_tryteBufferInRange hs⟩

/-- Settles O15. -/
theorem resetTryteBufferInRange : Obligations.ResetTryteBufferInRange := tryteBufferInRange_reset

end Sys2Proof.Machine
end

section
/-! The invariant of the machine (R24, R27, R29, R33, R36, R54), operation by operation of a step. -/

namespace Sys2Proof.Safety

open Sys2Proof.Machine

/-- The invariant speaks of `STATUS`, `OUT_LEN`, `LCMD`, the slots and `NZ` alone. -/
theorem Inv.congr {s t : State} (h : Inv s) (hstatus : t.status = s.status) (houtLen : t.outLen = s.outLen)
    (hlcmd : t.lcmd = s.lcmd) (hmem : t.mem = s.mem) (hnz : t.nz = s.nz) : Inv t := by
  have hvalid : ∀ k, t.outValid k = s.outValid k := fun k => by simp only [State.outValid, State.outSlot, hmem]
  constructor <;> simp only [hstatus, houtLen, hlcmd, hmem, hnz, hvalid]
  exacts [h.memWf, h.slots, h.outValid, h.countZero, h.countTable, h.errNone, h.expectedZero, h.expectedTable,
    h.errIndexZero, h.lastOpIdle, h.lastOp, h.nzBound]

theorem Inv.outValid_eq_false {s : State} (h : Inv s) (hstate : s.status.state ≠ .done) {k : Nat} (hk : k < 256) :
    s.outValid k = false :=
  Bool.eq_false_iff.2 fun hvalid => hstate ((h.outValid k hk).1 hvalid).1

/-! ### The three ways the state of the core starts over or ends an operation -/

theorem expectedLen_mem_table (i : Instr) : expectedLen i ∈ [81, 243, 48, 1, 3] := by
  cases i <;> simp [expectedLen]

theorem resultCount_mem_table (i : Instr) : resultCount i ∈ [48, 81, 243, 1, 3] := by
  cases i <;> simp [resultCount]

/-- Both columns of the table fit the 8-bit register fields they are recorded in (R72). -/
theorem expectedLen_lt (i : Instr) : expectedLen i < 256 := by
  cases i <;> simp [expectedLen]

theorem resultCount_lt (i : Instr) : resultCount i < 256 := by
  cases i <;> simp [resultCount]

theorem inv_reset : Inv State.reset where
  memWf := Memory.wf_nil
  slots := nofun
  outValid _ _ := ⟨nofun, fun h => nomatch h.1⟩
  countZero _ := rfl
  countTable := nofun
  errNone := ⟨fun _ => nofun, fun _ => rfl⟩
  expectedZero _ := rfl
  expectedTable := nofun
  errIndexZero _ := rfl
  lastOpIdle _ := rfl
  lastOp := nofun
  nzBound := Nat.zero_le 11

theorem code_ne_none (e : CoreError) : e.code ≠ .none := by
  cases e <;> nofun

/-- An error leaves no result and records what R203 says: `EXPECTED` on LENGTH_ERROR, `ERR_INDEX` on
INVALID_ELEMENT. -/
theorem Inv.forgetHidden_raiseError {u : State} (h : Inv u) (busy : u.status.state = .busy) (e : CoreError)
    (recorded : ∀ n, e = .lengthError n → ∃ i, n = expectedLen i) : Inv (forgetHidden (raiseError e u)) where
  memWf := h.memWf
  slots := h.slots
  outValid k hk := by
    have hclear := h.outValid_eq_false (by rw [busy]; nofun) hk
    exact ⟨fun hvalid => absurd (hclear.symm.trans hvalid) nofun, fun hdone => nomatch hdone.1⟩
  countZero _ := rfl
  countTable := nofun
  errNone := ⟨fun hcode => absurd hcode (code_ne_none e), fun herr => absurd rfl herr⟩
  expectedZero hcode := by
    cases e with
    | lengthError n => exact absurd rfl hcode
    | illegalOp => rfl
    | invalidElement k => rfl
  expectedTable hcode := by
    cases e with
    | lengthError n =>
      obtain ⟨i, rfl⟩ := recorded n rfl
      show (BitVec.ofNat 8 (expectedLen i)).toNat ∈ _
      rw [BitVec.toNat_ofNat, Nat.mod_eq_of_lt (expectedLen_lt i)]
      exact expectedLen_mem_table i
    | illegalOp => nomatch hcode
    | invalidElement k => nomatch hcode
  errIndexZero hcode := by
    cases e with
    | lengthError n => rfl
    | illegalOp => rfl
    | invalidElement k => exact absurd rfl hcode
  lastOpIdle := nofun
  lastOp := nofun
  nzBound := Nat.le_of_lt_succ (Config.deadNz u.retired).isLt

/-- A completion makes valid exactly the result slots below `COUNT` (R206): no slot of `OUT` was valid before. -/
theorem Inv.forgetHidden_endsIn {u t : State} {i : Instr} {rs : List Byte} (h : Inv u)
    (busy : u.status.state = .busy) (count : rs.length = resultCount i) (ends : EndsIn rs u t) :
    Inv (forgetHidden t) := by
  have hlt : rs.length < 256 := count ▸ resultCount_lt i
  have hstate : (forgetHidden t).status.state = .done := by rw [forgetHidden_status, ends.status]
  have herr : (forgetHidden t).status.err = .none := by rw [forgetHidden_status, ends.status]
  have hexpected : (forgetHidden t).status.expected = 0 := by rw [forgetHidden_status, ends.status]
  have hindex : (forgetHidden t).status.errIndex = 0 := by rw [forgetHidden_status, ends.status]
  have hcount : (forgetHidden t).outLen.toNat = rs.length := by
    rw [forgetHidden_outLen, ends.outLen, BitVec.toNat_ofNat, Nat.mod_eq_of_lt hlt]
  have hmem : (forgetHidden t).mem = u.mem.writeList (outAddr 0) rs := ends.mem
  constructor
  case memWf => rw [hmem]; exact Memory.wf_writeList _ _ h.memWf
  case slots =>
    intro c hc
    rw [hmem] at hc
    rcases Memory.mem_writeList hc with ⟨hlow, hhigh⟩ | hold
    · unfold outAddr at hlow hhigh
      omega
    · exact h.slots c hold
  case outValid =>
    intro k hk
    have hclear := h.outValid_eq_false (by rw [busy]; nofun) hk
    rw [State.outValid, outSlot_forgetHidden, ends.outSlot, hstate, hcount]
    split
    · next hbelow => simp [hbelow]
    · next habove => simpa [habove, State.outValid] using hclear
  case countZero => exact fun hne => absurd hstate hne
  case countTable => intro _; rw [hcount, count]; exact resultCount_mem_table i
  case errNone => rw [herr, hstate]; exact ⟨fun _ => nofun, fun _ => rfl⟩
  case expectedZero => exact fun _ => hexpected
  case expectedTable => rw [herr]; nofun
  case errIndexZero => exact fun _ => hindex
  case lastOpIdle => rw [hstate]; nofun
  case lastOp => rw [hstate]; nofun
  case nzBound => exact Nat.le_of_lt_succ (Config.deadNz t.retired).isLt

/-! ### The host's writes -/

/-- A command write clears every result slot and latches its own `OP` in `LAST_OP` (R71). -/
theorem Inv.startCommand {u : State} (h : Inv u) (c : Word) : Inv (startCommand c u) where
  memWf := Memory.wf_dropOut h.memWf
  slots x hx := h.slots x (Memory.mem_dropOut.1 hx).1
  outValid k _ := by
    rw [State.outValid, outSlot_startCommand]
    exact ⟨nofun, fun hdone => nomatch hdone.1⟩
  countZero _ := rfl
  countTable := nofun
  errNone := ⟨fun _ => nofun, fun _ => rfl⟩
  expectedZero _ := rfl
  expectedTable := nofun
  errIndexZero _ := rfl
  lastOpIdle := nofun
  lastOp _ := rfl
  nzBound := h.nzBound

/-- An operand write touches no slot of `OUT`. -/
theorem outSlot_write_inAddr (u : State) {k : Nat} (hk : k < 256) (b : Byte) (j : Nat) :
    State.outSlot { u with mem := u.mem.write (inAddr k) b } j = u.outSlot j :=
  Memory.read_write_other _ _ (by unfold inAddr outAddr; omega)

theorem Inv.write_inAddr {u : State} (h : Inv u) {k : Nat} (hk : k < 256) (b : Byte) :
    Inv { u with mem := u.mem.write (inAddr k) b } where
  memWf := Memory.wf_write _ _ h.memWf
  slots c hc := by
    rcases Memory.mem_write hc with rfl | hold
    · unfold inAddr
      dsimp only
      omega
    · exact h.slots c hold
  outValid j hj := by
    rw [State.outValid, outSlot_write_inAddr u hk b j]
    exact h.outValid j hj
  countZero := h.countZero
  countTable := h.countTable
  errNone := h.errNone
  expectedZero := h.expectedZero
  expectedTable := h.expectedTable
  errIndexZero := h.errIndexZero
  lastOpIdle := h.lastOpIdle
  lastOp := h.lastOp
  nzBound := h.nzBound

/-! ### A step -/

theorem inv_of_stepEffect {u t : State} (h : StepEffect u t) (hu : Inv u) : Inv t := by
  cases h with
  | hold => exact hu
  | fails busy e recorded => exact hu.forgetHidden_raiseError busy e recorded
  | completes busy i rs v count ends => exact hu.forgetHidden_endsIn busy count ends
  | resets => exact inv_reset.congr rfl rfl rfl rfl rfl
  | reads => exact hu.congr rfl rfl rfl rfl rfl
  | command idle c => exact hu.startCommand c
  | operand idle k slot b => exact hu.write_inAddr slot b

/-- Settles O12, by the inversion of a step: each effect keeps the invariant. -/
theorem stepKeepsTheInvariant : Obligations.StepKeepsTheInvariant :=
  fun _ _ hs h => inv_of_stepEffect (step_effect h) (hs.congr rfl rfl rfl rfl rfl)

/-- Settles O13. -/
theorem resetMeetsTheInvariant : Obligations.ResetMeetsTheInvariant := inv_reset

end Sys2Proof.Safety
end

section
/-! Noninterference: the hidden state reaches no host (R31, R32, R35, R36), and an operation reads its operand slots
alone (R28, R75). -/

namespace Sys2Proof.Safety

open Sys2Proof.Machine

theorem sameOutcome_next (s t : State) : SameOutcome (.next s) (.next t) ↔ SameToHost s t := Iff.rfl

section
variable {s t : State}

theorem SameToHost.isBusy (h : SameToHost s t) : s.isBusy = t.isBusy := by
  rw [State.isBusy, State.isBusy, h.status]

theorem SameToHost.popped (h : SameToHost s t) : SameToHost (popped s) (popped t) where
  status := h.status
  outLen := h.outLen
  mem := h.mem
  agenda := congrArg List.tail h.agenda
  reply := h.reply
  freeReads := h.freeReads
  lcmd := h.lcmd

theorem SameToHost.applyReset (h : SameToHost s t) : SameToHost (applyReset s) (applyReset t) where
  status := rfl
  outLen := rfl
  mem := rfl
  agenda := h.agenda
  reply := h.reply
  freeReads := h.freeReads
  lcmd _ := rfl

/-- What a read leaves is the same for both if the replies and the counters are. -/
theorem SameToHost.reads (h : SameToHost s t) {r r' : Reply} {n n' : Nat} (hr : r = r') (hn : n = n') :
    SameToHost { s with reply := r, freeReads := n } { t with reply := r', freeReads := n' } where
  status := h.status
  outLen := h.outLen
  mem := h.mem
  agenda := h.agenda
  reply := hr
  freeReads := hn
  lcmd := h.lcmd

/-- A command write makes the latched commands equal, whatever they were. -/
theorem SameToHost.startCommand (h : SameToHost s t) (c : Word) :
    SameToHost (startCommand c s) (startCommand c t) where
  status := rfl
  outLen := rfl
  mem := congrArg Memory.dropOut h.mem
  agenda := h.agenda
  reply := h.reply
  freeReads := h.freeReads
  lcmd _ := rfl

theorem SameToHost.write (h : SameToHost s t) (a : Nat) (b : Byte) :
    SameToHost { s with mem := s.mem.write a b } { t with mem := t.mem.write a b } where
  status := h.status
  outLen := h.outLen
  mem := congrArg (Memory.write · a b) h.mem
  agenda := h.agenda
  reply := h.reply
  freeReads := h.freeReads
  lcmd := h.lcmd

theorem SameToHost.raiseError (h : SameToHost s t) (e : CoreError) :
    SameToHost (raiseError e s) (raiseError e t) where
  status := by rw [raiseError_status, raiseError_status, h.status]
  outLen := rfl
  mem := h.mem
  agenda := h.agenda
  reply := h.reply
  freeReads := h.freeReads
  lcmd := nofun

theorem SameToHost.endsIn {s' t' : State} {rs : List Byte} (h : SameToHost s t) (hs : EndsIn rs s s')
    (ht : EndsIn rs t t') : SameToHost s' t' where
  status := by rw [hs.status, ht.status, h.status]
  outLen := by rw [hs.outLen, ht.outLen]
  mem := by rw [hs.mem, ht.mem, h.mem]
  agenda := by rw [hs.agenda, ht.agenda, h.agenda]
  reply := by rw [hs.reply, ht.reply, h.reply]
  freeReads := by rw [hs.freeReads, ht.freeReads, h.freeReads]
  lcmd := by rw [hs.status]; nofun

/-- No operation runs after one has ended, so the latched commands may differ. -/
theorem SameToHost.forgetHidden (h : SameToHost s t) (idle : s.status.state ≠ .busy) :
    SameToHost (forgetHidden s) (forgetHidden t) where
  status := h.status
  outLen := h.outLen
  mem := h.mem
  agenda := h.agenda
  reply := h.reply
  freeReads := h.freeReads
  lcmd busy := absurd busy idle

theorem SameToHost.inSlot (h : SameToHost s t) (k : Nat) : s.inSlot k = t.inSlot k := by
  rw [State.inSlot, State.inSlot, h.mem]

/-! ### The core's move -/

theorem SameToHost.runCommand (h : SameToHost s t) (busy : s.status.state = .busy) :
    SameOutcome (runCommand s) (runCommand t) := by
  cases hdec : decode s.lcmd with
  | error e =>
    rw [runCommand_error hdec, runCommand_error (h.lcmd busy ▸ hdec), sameOutcome_next]
    exact (h.raiseError _).forgetHidden nofun
  | ok i =>
    rw [runCommand_ok hdec, runCommand_ok (h.lcmd busy ▸ hdec)]
    rcases exec_agree i (s := s) (t := t) fun k _ => h.inSlot k with
      ⟨e, hs, ht⟩ | ⟨r, hs, ht⟩ | ⟨s', t', rs, hs, ht, -, ends, ends'⟩ <;> rw [hs, ht]
    · exact (h.raiseError e).forgetHidden nofun
    · rfl
    · exact (h.endsIn ends ends').forgetHidden (by rw [ends.status]; nofun)

theorem SameToHost.coreMove (h : SameToHost s t) : SameOutcome (coreMove s) (coreMove t) := by
  cases hb : s.isBusy with
  | true =>
    rw [coreMove_busy hb, coreMove_busy (h.isBusy ▸ hb)]
    exact h.runCommand ((isBusy_iff s).1 hb)
  | false =>
    rw [coreMove_not_busy hb, coreMove_not_busy (h.isBusy ▸ hb)]
    exact h

/-! ### The host's accesses -/

theorem SameToHost.read (h : SameToHost s t) (off : Nat) : s.mem.read off = t.mem.read off := by
  rw [h.mem]

theorem SameToHost.readInSlot (h : SameToHost s t) (off : Nat) :
    SameToHost (readInSlot off s) (readInSlot off t) := by
  unfold Machine.readInSlot
  rw [h.read off]
  split
  · exact h.reads rfl h.freeReads
  · exact h.reads (by rw [h.freeReads]) (by rw [h.freeReads])

theorem SameToHost.hostRead (h : SameToHost s t) (off n : Nat) :
    SameOutcome (hostRead off n s) (hostRead off n t) := by
  unfold Machine.hostRead
  rw [h.read off]
  split
  · exact h.reads (by rw [h.status]) h.freeReads
  split
  · exact h.reads (by rw [h.outLen]) h.freeReads
  split
  · exact h.readInSlot off
  split
  · split
    · exact h.reads rfl h.freeReads
    · rfl
  · rfl

theorem SameToHost.hostWrite (h : SameToHost s t) (off n : Nat) (v : Word) :
    SameOutcome (hostWrite off n v s) (hostWrite off n v t) := by
  unfold Machine.hostWrite
  rw [h.isBusy]
  split
  · split
    · rfl
    · exact h.startCommand v
  split
  · split
    · rfl
    · exact h.write _ _
  · rfl

/-! ### A step and a run -/

theorem SameToHost.handleEvent (h : SameToHost s t) (e : Event) :
    SameOutcome (handleEvent e s) (handleEvent e t) := by
  cases e with
  | host a =>
    cases a with
    | read off n => exact h.hostRead off n
    | write off n v => exact h.hostWrite off n v
  | coreRun => exact h.coreMove
  | reset => exact h.applyReset

theorem SameToHost.step (h : SameToHost s t) : SameOutcome (step s) (step t) := by
  rw [step_eq_handleEvent, step_eq_handleEvent, h.agenda]
  exact h.popped.handleEvent _

end

/-- Related outcomes of a step are both next states, both the same fault or both the same refusal. -/
theorem sameOutcome_cases {o o' : Host.Outcome State Fault Refusal} (h : SameOutcome o o') :
    (∃ s t, o = .next s ∧ o' = .next t ∧ SameToHost s t) ∨ (∃ r, o = .fault r ∧ o' = .fault r) ∨
      (∃ r, o = .refused r ∧ o' = .refused r) := by
  match o, o', h with
  | .next s, .next t, h => exact .inl ⟨s, t, rfl, rfl, h⟩
  | .fault r, .fault _, h => cases h; exact .inr (.inl ⟨r, rfl, rfl⟩)
  | .refused r, .refused _, h => cases h; exact .inr (.inr ⟨r, rfl, rfl⟩)

/-- Settles O16, by induction on the number of steps: one step keeps the relation. -/
theorem hiddenStateReachesNoHost : Obligations.HiddenStateReachesNoHost := by
  unfold Obligations.HiddenStateReachesNoHost
  intro n
  induction n with
  | zero => exact fun _ _ h => h
  | succ n ih =>
    intro s t h
    rcases sameOutcome_cases h.step with ⟨s', t', hs, ht, hnext⟩ | ⟨r, hs, ht⟩ | ⟨r, hs, ht⟩
    · rw [run_succ_of_next hs, run_succ_of_next ht]
      exact ih s' t' hnext
    · rw [run_succ_of_fault hs, run_succ_of_fault ht]
      rfl
    · rw [run_succ_of_refused hs, run_succ_of_refused ht]
      rfl

/-- Settles O26: the operands decide the outcome, and a completion's registers and results are the operation's own. -/
theorem operationReadsOnlyItsOperands : Obligations.OperationReadsOnlyItsOperands := by
  unfold Obligations.OperationReadsOnlyItsOperands
  intro i s t hslots hlast
  rcases exec_agree i hslots with ⟨e, hs, ht⟩ | ⟨r, hs, ht⟩ | ⟨s', t', rs, hs, ht, hcount, ends, ends'⟩ <;>
    rw [hs, ht]
  · refine ⟨by rw [raiseError_status, raiseError_status, hlast], rfl, fun k hk => ?_⟩
    exact absurd hk (Nat.not_lt_zero k)
  · refine ⟨by rw [ends.status, ends'.status, hlast], by rw [ends.outLen, ends'.outLen], fun k hk => ?_⟩
    rw [ends.outLen, BitVec.toNat_ofNat] at hk
    have hbelow : k < rs.length := lt_of_lt_of_le hk (Nat.mod_le _ _)
    rw [ends.outSlot, ends'.outSlot, if_pos hbelow, if_pos hbelow]

end Sys2Proof.Safety
end

section
/-! The host's accesses: what the registers read as, bit by bit (R24, R27), and each access a host may make of a slot
(R28, R29, R54, R56); with them, the reset input (R38, R39). -/

namespace Sys2Proof.Machine

open Sys2Proof.Safety

/-! ### The fields of the registers -/

/-- A field of a word, by the number the word is. -/
theorem extractLsb'_eq_of_toNat {w n : Nat} {x : BitVec w} {y : BitVec n} (start : Nat)
    (h : x.toNat / 2 ^ start % 2 ^ n = y.toNat) : x.extractLsb' start n = y := by
  refine BitVec.eq_of_toNat_eq ?_
  rw [BitVec.extractLsb'_toNat, Nat.shiftRight_eq_div_pow, h]

/-- Every field of `STATUS` stands at its place, and the reserved bits are 0 (R24). -/
theorem Status.extractLsb'_pack (st : Status) :
    st.pack.extractLsb' 0 2 = st.state.code ∧ st.pack.extractLsb' 2 2 = 0 ∧ st.pack.extractLsb' 4 2 = st.err.code ∧
      st.pack.extractLsb' 6 2 = 0 ∧ st.pack.extractLsb' 8 8 = st.expected ∧ st.pack.extractLsb' 16 8 = st.errIndex ∧
      st.pack.extractLsb' 24 4 = st.lastOp ∧ st.pack.extractLsb' 28 4 = 0 := by
  have hstate := st.state.code.isLt
  have herr := st.err.code.isLt
  have hexpected := st.expected.isLt
  have hindex := st.errIndex.isLt
  have hop := st.lastOp.isLt
  have zero2 : (0 : BitVec 2).toNat = 0 := rfl
  have zero4 : (0 : BitVec 4).toNat = 0 := rfl
  refine ⟨?_, ?_, ?_, ?_, ?_, ?_, ?_, ?_⟩
  all_goals
    refine extractLsb'_eq_of_toNat _ ?_
    rw [st.toNat_pack]
    omega

/-- `COUNT` stands in the low byte of `OUT_LEN`, and the reserved bits are 0 (R27). -/
theorem extractLsb'_packOutLen (count : BitVec 8) :
    (packOutLen count).extractLsb' 0 8 = count ∧ (packOutLen count).extractLsb' 8 24 = 0 := by
  have hcount := count.isLt
  have zero24 : (0 : BitVec 24).toNat = 0 := rfl
  constructor
  all_goals
    refine extractLsb'_eq_of_toNat _ ?_
    rw [toNat_packOutLen]
    omega

/-! ### One access of each kind -/

theorem step_hostRead {s : State} {off n : Nat} {rest : List Event} (h : s.agenda = .host (.read off n) :: rest) :
    step s = hostRead off n { s with agenda := rest } := by
  rw [step_cons h]
  rfl

theorem step_hostWrite {s : State} {off n : Nat} {v : Word} {rest : List Event}
    (h : s.agenda = .host (.write off n v) :: rest) : step s = hostWrite off n v { s with agenda := rest } := by
  rw [step_cons h]
  rfl

theorem hostRead_status (s : State) : hostRead 0x004 4 s = .next { s with reply := .word s.status.pack } := rfl

theorem hostRead_outLen (s : State) : hostRead 0x008 4 s = .next { s with reply := .word (packOutLen s.outLen) } := rfl

theorem isInOffset_inAddr {k : Nat} (hk : k < 256) : isInOffset (inAddr k) = true := by
  simp [isInOffset, inAddr, show 0x100 + k < 0x200 by omega]

theorem isInOffset_outAddr (k : Nat) : isInOffset (outAddr k) = false := by
  simp [isInOffset, outAddr]

theorem isOutOffset_outAddr {k : Nat} (hk : k < 256) : isOutOffset (outAddr k) = true := by
  simp [isOutOffset, outAddr, show 0x200 + k < 0x300 by omega]

theorem hostRead_inAddr (s : State) {k : Nat} (hk : k < 256) :
    hostRead (inAddr k) 1 s = .next (readInSlot (inAddr k) s) := by
  simp [hostRead, isInOffset_inAddr hk]

theorem hostRead_outAddr {s : State} {k : Nat} {b : Byte} (hk : k < 256) (hb : s.outSlot k = some b) :
    hostRead (outAddr k) 1 s = .next { s with reply := .byte b } := by
  have hread : s.mem.read (outAddr k) = some b := hb
  simp [hostRead, isInOffset_outAddr, isOutOffset_outAddr hk, hread]

theorem hostWrite_inAddr {s : State} {k : Nat} (v : Word) (hk : k < 256) (idle : s.status.state ≠ .busy) :
    hostWrite (inAddr k) 1 v s = .next { s with mem := s.mem.write (inAddr k) (v.extractLsb' 0 8) } := by
  simp [hostWrite, isInOffset_inAddr hk, (isBusy_eq_false_iff s).2 idle]

theorem readInSlot_of_written {s : State} {off : Nat} {b : Byte} (h : s.mem.read off = some b) :
    readInSlot off s = { s with reply := .byte b } := by
  rw [readInSlot, h]

theorem readInSlot_of_unwritten {s : State} {off : Nat} (h : s.mem.read off = none) :
    readInSlot off s =
      { s with reply := .byte (Config.unwrittenIn s.freeReads), freeReads := s.freeReads + 1 } := by
  rw [readInSlot, h]

/-- The byte a 1-byte write stores is the low one of the value it carries (log entry 11). -/
theorem extractLsb'_low_byte (v : Word) : v.extractLsb' 0 8 = BitVec.ofNat 8 v.toNat :=
  extractLsb'_eq_of_toNat 0 (by rw [Nat.pow_zero, Nat.div_one, BitVec.toNat_ofNat])

/-! ### The obligations -/

/-- Settles O18: the write is the sorted insertion of the low byte, and the memory's read-after-write rules say the
rest. -/
theorem operandWriteStoresTheByte : Obligations.OperandWriteStoresTheByte := by
  unfold Obligations.OperandWriteStoresTheByte
  intro s k v rest hk hagenda idle
  refine ⟨s.mem.write (inAddr k) (v.extractLsb' 0 8), ?_, ?_, fun a ha => Memory.read_write_other _ _ ha,
    Memory.wf_write _ _⟩
  · exact (step_hostWrite hagenda).trans (hostWrite_inAddr v hk idle)
  · rw [← extractLsb'_low_byte]
    exact Memory.read_write_same _ _ _

/-- Settles O19. -/
theorem registerReadsReturnTheFields : Obligations.RegisterReadsReturnTheFields := by
  unfold Obligations.RegisterReadsReturnTheFields
  intro s rest
  constructor
  · intro hagenda
    obtain ⟨hstate, hrsv2, herr, hrsv6, hexpected, hindex, hop, hrsv28⟩ := s.status.extractLsb'_pack
    refine ⟨s.status.pack, (step_hostRead hagenda).trans (hostRead_status _), ?_⟩
    rw [hstate, herr]
    refine ⟨?_, ?_, ?_, ?_, hrsv2, ?_, ?_, ?_, ?_, hrsv6, hexpected, hindex, hop, hrsv28⟩
    all_goals
      intro hcode
      rw [hcode]
      rfl
  · intro hagenda
    exact ⟨packOutLen s.outLen, (step_hostRead hagenda).trans (hostRead_outLen _), extractLsb'_packOutLen s.outLen⟩

/-- Settles O10. -/
theorem resetLeavesTheSpecifiedValues : Obligations.ResetLeavesTheSpecifiedValues :=
  ⟨rfl, rfl, rfl, rfl, rfl, rfl, rfl, fun _ => rfl, fun _ => rfl⟩

/-- Settles O11: the step is `applyReset`, which reads no field of the core. -/
theorem resetAbandonsARunningOperation : Obligations.ResetAbandonsARunningOperation := by
  unfold Obligations.ResetAbandonsARunningOperation
  intro s rest hagenda
  rw [step_cons hagenda]
  rfl

/-- Settles O20. -/
theorem slotReadsReturnTheByte : Obligations.SlotReadsReturnTheByte := by
  unfold Obligations.SlotReadsReturnTheByte
  intro s k rest hk
  constructor
  · intro b hagenda hb
    calc step s = hostRead (inAddr k) 1 { s with agenda := rest } := step_hostRead hagenda
      _ = .next (readInSlot (inAddr k) { s with agenda := rest }) := hostRead_inAddr _ hk
      _ = .next { s with agenda := rest, reply := .byte b } :=
        congrArg _ (readInSlot_of_written (s := { s with agenda := rest }) hb)
  · intro b hagenda hb
    exact (step_hostRead hagenda).trans (hostRead_outAddr hk hb)

/-- Settles O21. -/
theorem unwrittenSlotReadReturnsAnyValue : Obligations.UnwrittenSlotReadReturnsAnyValue := by
  unfold Obligations.UnwrittenSlotReadReturnsAnyValue
  intro s k rest hk hagenda hclear
  have hnone : s.mem.read (inAddr k) = none := by
    simpa [State.inWritten, State.inSlot] using hclear
  calc step s = hostRead (inAddr k) 1 { s with agenda := rest } := step_hostRead hagenda
    _ = .next (readInSlot (inAddr k) { s with agenda := rest }) := hostRead_inAddr _ hk
    _ = _ := congrArg _ (readInSlot_of_unwritten (s := { s with agenda := rest }) hnone)

end Sys2Proof.Machine
end

section
/-! What a host sees of a running operation (R59(b), R210(d)): `STATUS` and `OUT_LEN` say that nothing has come out yet,
and no offset of the window holds a result. -/

namespace Sys2Proof.Machine

open Sys2Proof.Safety

/-! ### Slots without a value -/

/-- What a memory reads as at an offset is one of its entries. -/
theorem Memory.mem_of_read {m : Memory} {a : Nat} {x : Byte} (h : m.read a = some x) : (a, x) ∈ m := by
  induction m with
  | nil => cases h
  | cons c rest ih =>
    obtain ⟨b, y⟩ := c
    rw [Memory.read_cons] at h
    split at h
    · next heq =>
      cases h
      exact heq ▸ List.mem_cons_self
    · exact List.mem_cons_of_mem _ (ih h)

theorem outValid_eq_false_iff (s : State) (k : Nat) : s.outValid k = false ↔ s.outSlot k = none := by
  rw [State.outValid, Option.isSome_eq_false_iff, Option.isNone_iff_eq_none]

/-- Only the 256 slots of `OUT` can be valid: past them the window has no slot (R54). -/
theorem outValid_eq_false_of_ge {s : State} (h : Inv s) {k : Nat} (hk : 256 ≤ k) : s.outValid k = false := by
  rw [outValid_eq_false_iff]
  cases hslot : s.outSlot k with
  | none => rfl
  | some b =>
    have hlisted : outAddr k < 0x300 := (h.slots _ (Memory.mem_of_read hslot)).2
    unfold outAddr at hlisted
    omega

theorem outValid_eq_false_of_not_done {s : State} (h : Inv s) (hstate : s.status.state ≠ .done) (k : Nat) :
    s.outValid k = false := by
  rcases Nat.lt_or_ge k 256 with hk | hk
  · exact h.outValid_eq_false hstate hk
  · exact outValid_eq_false_of_ge h hk

/-- A read of a result slot that is not valid is the host misuse of R210(d). -/
theorem hostRead_outAddr_of_not_valid {s : State} {k : Nat} (hk : k < 256) (hvalid : s.outValid k = false) :
    hostRead (outAddr k) 1 s = .fault (.hostProtocol (.invalidResultRead k)) := by
  have hread : s.mem.read (outAddr k) = none := (outValid_eq_false_iff s k).1 hvalid
  have hindex : outAddr k - 0x200 = k := Nat.add_sub_cancel_left _ _
  simp [hostRead, isInOffset_outAddr, isOutOffset_outAddr hk, hread, hindex]

/-- A read that comes first on the agenda meets the state as it stands. -/
theorem step_read_first (s : State) (off n : Nat) :
    step { s with agenda := .host (.read off n) :: s.agenda } = hostRead off n s := step_hostRead rfl

/-- Settles O22: the registers read as their fields, of which the invariant fixes `ERR` and `COUNT` outside DONE and
ERROR, and it leaves no result slot valid. -/
theorem runningOperationShowsNothing : Obligations.RunningOperationShowsNothing := by
  unfold Obligations.RunningOperationShowsNothing
  intro s hinv busy
  have notDone : s.status.state ≠ .done := by simp [busy]
  have noError : s.status.err = .none := hinv.errNone.2 (by simp [busy])
  have noCount : s.outLen = 0 := hinv.countZero notDone
  have noResult := outValid_eq_false_of_not_done hinv notDone
  obtain ⟨hstate, -, herr, -⟩ := s.status.extractLsb'_pack
  refine ⟨⟨_, s.status.pack, (step_read_first _ _ _).trans (hostRead_status s), rfl, ?_, ?_⟩,
    ⟨_, (step_read_first _ _ _).trans (hostRead_outLen s), ?_⟩, noResult, fun k hk => ?_⟩
  · rw [hstate, busy]
    rfl
  · rw [herr, noError]
    rfl
  · rw [noCount]
    rfl
  · exact (step_read_first _ _ _).trans (hostRead_outAddr_of_not_valid hk (noResult k))

end Sys2Proof.Machine
end

section
/-! Command words (R70 to R73): each row of the table of R72 is read back by its own `OP` code, the decoder accepts
exactly the words with a row and no reserved bit set, and the round trips follow. -/

namespace Sys2Proof

/-! ### The fields and the table (R70, R72) -/

/-- The four fields are the whole command word (R70). -/
theorem toNat_eq_fields (c : Word) :
    c.toNat = (opField c).toNat + 16 * (rsv0Field c).toNat + 256 * (lenField c).toNat
      + 65536 * (rsv1Field c).toNat := by
  rw [toNat_opField, toNat_rsv0Field, toNat_lenField, toNat_rsv1Field]
  omega

theorem instrOfOp_opcode (i : Instr) : instrOfOp (opcode i).toNat i.len = some i := by
  cases i <;> rfl

/-- An `OP` code has at most one row. -/
theorem instrOfOp_eq_some_iff {op len : Nat} {i : Instr} :
    instrOfOp op len = some i ↔ op = (opcode i).toNat ∧ len = i.len := by
  constructor
  · intro h
    unfold instrOfOp at h
    split at h <;> cases h <;> exact ⟨rfl, rfl⟩
  · rintro ⟨rfl, rfl⟩
    exact instrOfOp_opcode i

/-- The unassigned codes of R73. -/
theorem instrOfOp_eq_none_iff {op len : Nat} : instrOfOp op len = none ↔ op = 0 ∨ 0xA ≤ op := by
  rcases Nat.lt_or_ge op 0xA with hlt | hge
  · interval_cases op <;> simp [instrOfOp]
  · obtain ⟨n, rfl⟩ := Nat.exists_eq_add_of_le' hge
    simp [instrOfOp]

/-! ### What the decoder accepts -/

/-- Both reserved fields of a command word are 0 (R73). -/
def ReservedClear (c : Word) : Prop := rsv0Field c = 0 ∧ rsv1Field c = 0

theorem decode_of_not_reservedClear {c : Word} (h : ¬ ReservedClear c) : decode c = .error .reservedBits :=
  if_pos (not_and_or.1 h)

theorem decode_of_some {c : Word} {i : Instr} (hrsv : ReservedClear c)
    (hrow : instrOfOp (opField c).toNat (lenField c).toNat = some i) : decode c = .ok i := by
  simp [decode, hrsv.1, hrsv.2, hrow]

theorem decode_of_none {c : Word} (hrsv : ReservedClear c)
    (hrow : instrOfOp (opField c).toNat (lenField c).toNat = none) : decode c = .error .unassignedOp := by
  simp [decode, hrsv.1, hrsv.2, hrow]

/-- The decoder accepts a word exactly for its fields: those the encoder writes (R70). -/
theorem decode_eq_ok_iff {c : Word} {i : Instr} :
    decode c = .ok i ↔ ReservedClear c ∧ opField c = opcode i ∧ (lenField c).toNat = i.len := by
  rw [← BitVec.toNat_inj, ← instrOfOp_eq_some_iff]
  by_cases hrsv : ReservedClear c
  · cases hrow : instrOfOp (opField c).toNat (lenField c).toNat with
    | none => simp [decode_of_none hrsv hrow]
    | some j => simp [decode_of_some hrsv hrow, hrsv]
  · simp [decode_of_not_reservedClear hrsv, hrsv]

theorem decode_eq_error_iff {c : Word} :
    (∃ e, decode c = .error e) ↔
      ¬ ReservedClear c ∨ instrOfOp (opField c).toNat (lenField c).toNat = none := by
  by_cases hrsv : ReservedClear c
  · cases hrow : instrOfOp (opField c).toNat (lenField c).toNat with
    | none => simp [decode_of_none hrsv hrow]
    | some j => simp [decode_of_some hrsv hrow, hrsv]
  · simp [decode_of_not_reservedClear hrsv, hrsv]

/-- The reserved fields by the number the word is. -/
theorem not_reservedClear_iff (c : Word) :
    ¬ ReservedClear c ↔ c.toNat / 16 % 16 ≠ 0 ∨ c.toNat / 65536 ≠ 0 := by
  rw [ReservedClear, not_and_or, ← BitVec.toNat_inj, ← BitVec.toNat_inj, toNat_rsv0Field, toNat_rsv1Field]
  rfl

/-! ### The obligations -/

/-- Settles O1: the fields of an encoded word are the instruction's own. -/
theorem decodeInvertsEncode : Obligations.DecodeInvertsEncode := by
  unfold Obligations.DecodeInvertsEncode
  intro i hwf
  obtain ⟨hop, hlen, hrsv0, hrsv1⟩ := Laws.EncodedFields.all i hwf
  exact decode_eq_ok_iff.2 ⟨⟨hrsv0, hrsv1⟩, hop, hlen⟩

/-- Settles O2: the four fields are the whole word (R70), and the decoder fixes each of them. -/
theorem decodedWordIsItsOwnEncoding : Obligations.DecodedWordIsItsOwnEncoding := by
  unfold Obligations.DecodedWordIsItsOwnEncoding
  intro c i h
  obtain ⟨⟨hrsv0, hrsv1⟩, hop, hlen⟩ := decode_eq_ok_iff.1 h
  have hlt : i.len < 256 := hlen ▸ (lenField c).isLt
  refine ⟨(Instr.wf_iff i).2 (Nat.le_of_lt_succ hlt), BitVec.eq_of_toNat_eq ?_⟩
  rw [toNat_encode, toNat_eq_fields c, hrsv0, hrsv1, hop, hlen, Nat.mod_eq_of_lt hlt]
  simp [add_comm, mul_comm]

/-- Settles O3: the reserved fields and the `OP` codes without a row, by the number the word is. -/
theorem decoderRejectsExactlyIllegalWords : Obligations.DecoderRejectsExactlyIllegalWords := by
  unfold Obligations.DecoderRejectsExactlyIllegalWords
  intro c
  rw [decode_eq_error_iff, not_reservedClear_iff, instrOfOp_eq_none_iff, toNat_opField]
  tauto

/-- The encoding of a well-formed instruction, written out as a number, decodes to it. -/
theorem decode_of_encode_eq {c : Word} {i : Instr} (henc : encode i = c) (hwf : i.wf = true) : decode c = .ok i :=
  henc ▸ decodeInvertsEncode i hwf

/-- Settles O4: each word is the encoding of its operation. -/
theorem tableWordsDecodeToTheirOperations : Obligations.TableWordsDecodeToTheirOperations := by
  unfold Obligations.TableWordsDecodeToTheirOperations
  refine ⟨?_, ?_, ?_, ?_, ?_, ?_, ?_, ?_, ?_⟩
  all_goals exact decode_of_encode_eq (by decide) (by decide)

end Sys2Proof
end

section
/-! The life of a command: the write that starts it (R71) and the core's move that runs it (R75). -/

namespace Sys2Proof.Machine

open Sys2Proof.Safety

/-! ### The command write -/

theorem hostWrite_command {s : State} (c : Word) (idle : s.status.state ≠ .busy) :
    hostWrite 0x000 4 c s = .next (startCommand c s) := by
  simp [hostWrite, (isBusy_eq_false_iff s).2 idle]

theorem outValid_startCommand (c : Word) (s : State) (k : Nat) : (startCommand c s).outValid k = false := by
  rw [outValid_eq_false_iff, outSlot_startCommand]

/-- A command write keeps the window below `OUT` (R71). -/
theorem read_startCommand_of_lt (c : Word) (s : State) {a : Nat} (ha : a < 0x200) :
    (startCommand c s).mem.read a = s.mem.read a := by
  rw [startCommand_mem, Memory.read_dropOut, if_pos ha]

/-- Settles O17: the step is `startCommand`. -/
theorem commandWriteStartsAnOperation : Obligations.CommandWriteStartsAnOperation := by
  unfold Obligations.CommandWriteStartsAnOperation
  intro s c rest hagenda idle
  exact ⟨startCommand c { s with agenda := rest }, (step_hostWrite hagenda).trans (hostWrite_command c idle),
    rfl, rfl, rfl, outValid_startCommand c _, fun a ha => read_startCommand_of_lt c _ ha,
    rfl, rfl, rfl, rfl, rfl, rfl, rfl, rfl⟩

/-! ### The core's move -/

theorem step_of_coreMovesNext {s : State} (h : CoreMovesNext s) : step s = coreMove (popped s) := by
  rw [step_eq_handleEvent]
  rcases h with hagenda | ⟨rest, hagenda⟩ <;> rw [hagenda] <;> rfl

/-- A busy core whose move is next runs its latched command (R75). -/
theorem step_busy_ok {s : State} {i : Instr} (busy : s.status.state = .busy) (next : CoreMovesNext s)
    (hdec : decode s.lcmd = .ok i) : step s = retire (exec i (popped s)) :=
  calc step s = coreMove (popped s) := step_of_coreMovesNext next
    _ = runCommand (popped s) := coreMove_busy ((isBusy_iff (popped s)).2 busy)
    _ = retire (exec i (popped s)) := runCommand_ok (s := popped s) hdec

/-- An operation that ends leaves no operation running (R203, R206). -/
theorem exec_next_not_busy {i : Instr} {s t : State} (h : exec i s = .next t) : t.status.state ≠ .busy := by
  rcases exec_outcomes i s with ⟨e, hexec, -⟩ | ⟨k, hexec⟩ | ⟨u, rs, hexec, -, ends⟩ <;>
    rw [hexec] at h <;> cases h
  · nofun
  · rw [ends.status]
    nofun

/-- Between operations no host can see the hidden state (R31, R32, R35, R36). -/
theorem sameToHost_forgetHidden {t : State} (idle : t.status.state ≠ .busy) : SameToHost (forgetHidden t) t where
  status := rfl
  outLen := rfl
  mem := rfl
  agenda := rfl
  reply := rfl
  freeReads := rfl
  lcmd busy := absurd busy idle

/-- Settles O5: `retire` forgets the hidden state of a next state and passes a fault on. -/
theorem stepRunsTheLatchedCommand : Obligations.StepRunsTheLatchedCommand := by
  unfold Obligations.StepRunsTheLatchedCommand
  intro s i busy next hdec
  have hstep := step_busy_ok busy next hdec
  refine ⟨hstep, fun t hexec => ⟨?_, sameToHost_forgetHidden (exec_next_not_busy hexec)⟩, fun r hexec => ?_⟩
  · rw [hstep, hexec, retire]
  · rw [hstep, hexec, retire]

end Sys2Proof.Machine
end

section
/-! The lookup ROM (R100): what its rows hold, and the four lookup functions read off the rows (R101 to R104). -/

namespace Sys2Proof.Machine

open Sys2Proof.Safety

/-! ### The rows -/

/-- The values of the rows are -13 to 13, in this order. -/
theorem map_value_tryteRom :
    tryteRom.map RomRow.value = (List.range 27).map (fun k : Nat => (k : Int) - 13) := by decide

theorem exists_row_of_isTryte {v : Int} (h : IsTryte v) : ∃ row ∈ tryteRom, row.value = v := by
  obtain ⟨hlow, hhigh⟩ := h
  rw [← List.mem_map, map_value_tryteRom, List.mem_map]
  exact ⟨(v + 13).toNat, List.mem_range.2 (by omega), by omega⟩

theorem romRow_value : ∀ row ∈ tryteRom, romRow row.value = row := by decide

theorem symbol_eq_symbolOf : ∀ row ∈ tryteRom, row.symbol = symbolOf row.value := by decide

/-- No two rows share a symbol, so the search for a row's symbol ends at that row. -/
theorem letterToValue_symbol : ∀ row ∈ tryteRom, letterToValue row.symbol = some row.value := by decide

/-- The trits of a row denote its value. -/
theorem row_trits : ∀ row ∈ tryteRom,
    IsTrit row.t0 ∧ IsTrit row.t1 ∧ IsTrit row.t2 ∧ row.t0 + 3 * row.t1 + 9 * row.t2 = row.value := by
  unfold IsTrit
  decide

/-! ### The functions -/

theorem letterToValue_eq_some_iff {b : Byte} {v : Int} :
    letterToValue b = some v ↔ ∃ row ∈ tryteRom, row.symbol = b ∧ row.value = v := by
  constructor
  · intro h
    obtain ⟨row, hfind, hvalue⟩ := Option.map_eq_some_iff.1 h
    exact ⟨row, List.mem_of_find?_eq_some hfind, by simpa using List.find?_some hfind, hvalue⟩
  · rintro ⟨row, hrow, rfl, rfl⟩
    exact letterToValue_symbol row hrow

theorem valueToLetter_value {row : RomRow} (h : row ∈ tryteRom) : valueToLetter row.value = row.symbol := by
  rw [valueToLetter, romRow_value row h]

theorem valueToLetter_eq_symbolOf {v : Int} (h : IsTryte v) : valueToLetter v = symbolOf v := by
  obtain ⟨row, hrow, rfl⟩ := exists_row_of_isTryte h
  rw [valueToLetter_value hrow, symbol_eq_symbolOf row hrow]

/-- `valueToTritTriple` gives three trits that denote the value (R103). -/
theorem valueToTritTriple_spec {v : Int} (h : IsTryte v) :
    IsTrit (valueToTritTriple v).1 ∧ IsTrit (valueToTritTriple v).2.1 ∧ IsTrit (valueToTritTriple v).2.2 ∧
      (valueToTritTriple v).1 + 3 * (valueToTritTriple v).2.1 + 9 * (valueToTritTriple v).2.2 = v := by
  obtain ⟨row, hrow, rfl⟩ := exists_row_of_isTryte h
  rw [valueToTritTriple, romRow_value row hrow]
  exact row_trits row hrow

/-- Three trits are determined by the value they denote: the closed form of R103 with `bal x = (x + 1) mod 3 - 1`. -/
theorem trits_eq_balanced_digits {t0 t1 t2 v : Int} (h0 : IsTrit t0) (h1 : IsTrit t1) (h2 : IsTrit t2)
    (hv : t0 + 3 * t1 + 9 * t2 = v) :
    t0 = (v + 1) % 3 - 1 ∧ t1 = ((v - t0) / 3 + 1) % 3 - 1 ∧ t2 = (v - t0 - 3 * t1) / 9 := by
  unfold IsTrit at h0 h1 h2
  omega

/-! ### The statements about the ROM -/

/-- Settles O40: a symbol slot is read by `letterToValue` itself, and `symbolOperand` is known on every byte. -/
theorem letterToValueIsTheClosedForm : Obligations.LetterToValueIsTheClosedForm := by
  unfold Obligations.LetterToValueIsTheClosedForm
  intro b
  exact ⟨symbolOperand_of_code, symbolOperand_of_not_code⟩

/-- Settles O41: the trits of a row are the only ones that denote its value. -/
theorem valueFunctionsAreTheClosedForms : Obligations.ValueFunctionsAreTheClosedForms := by
  unfold Obligations.ValueFunctionsAreTheClosedForms
  intro v hv
  refine ⟨valueToLetter_eq_symbolOf hv, ?_⟩
  obtain ⟨h0, h1, h2, hsum⟩ := valueToTritTriple_spec hv
  obtain ⟨e0, e1, e2⟩ := trits_eq_balanced_digits h0 h1 h2 hsum
  dsimp only
  rw [← e0, ← e1, ← e2]

/-- Settles O42: each clause is a fact about one row. -/
theorem lookupFunctionsAreMutuallyInverse : Obligations.LookupFunctionsAreMutuallyInverse := by
  unfold Obligations.LookupFunctionsAreMutuallyInverse
  refine ⟨fun _ _ _ => rfl, fun v hv => ?_, fun b v hb => ?_, fun v hv => ?_⟩
  · obtain ⟨-, -, -, hsum⟩ := valueToTritTriple_spec hv
    exact hsum
  · obtain ⟨row, hrow, rfl, rfl⟩ := letterToValue_eq_some_iff.1 hb
    exact valueToLetter_value hrow
  · obtain ⟨row, hrow, rfl⟩ := exists_row_of_isTryte hv
    rw [valueToLetter_value hrow]
    exact letterToValue_symbol row hrow

end Sys2Proof.Machine
end

section
/-! Operations on operands that are all valid: they complete (R75, R206), with every register but the results and the
sequencer kept (R35, R37). -/

namespace Sys2Proof.Machine

open Sys2Proof.Safety

/-! ### From the operands to the completion -/

theorem operands_singleton {s : State} {b : Byte} (h : s.inSlot 0 = some b) : Operands s [b] := by
  intro k hk
  obtain rfl : k = 0 := by simpa using hk
  exact h

/-- Operands that are all written and valid run the operation's own rule on their elements. -/
theorem runOperation_of_operands {α : Type} {n : Nat} {element : Byte → Option α} {f : Byte → α} {bs : List Byte}
    {s : State} (body : List α → State → State) (hlen : bs.length = n) (hslots : Operands s bs)
    (hvalid : ∀ b ∈ bs, element b = some (f b)) :
    runOperation n element n body s = .next (body (bs.map f) s) := by
  subst hlen
  refine runOperation_of_elements (fetchOperands_of_valid (fun j hj => ?_) ?_)
  · rw [Nat.zero_add, hslots j hj]
  · rw [List.map_map]
    exact List.map_congr_left hvalid

/-- An operation that ends in the table's number of results, with its code and `LEN` in the sequencer, completes. -/
theorem EndsIn.completes {i : Instr} {s t : State} {rs : List Byte} (h : EndsIn rs s t)
    (hcount : rs.length = resultCount i) (hop : t.seq.op = opcode i)
    (hlen : t.seq.len = BitVec.ofNat 8 (expectedLen i)) : Completes i s t rs where
  status := h.status
  count := by
    rw [h.outLen, BitVec.toNat_ofNat, hcount]
    exact Nat.mod_eq_of_lt (resultCount_lt i)
  tableCount := hcount
  written k hk := by rw [h.read, if_pos ⟨by omega, by omega⟩, Nat.add_sub_cancel_left]
  frame a ha := by rw [h.read, if_neg ha]
  lcmd := h.lcmd
  seqOp := hop
  seqLen := by
    rw [hlen, BitVec.toNat_ofNat]
    exact Nat.mod_eq_of_lt (expectedLen_lt i)
  agenda := h.agenda
  reply := h.reply
  freeReads := h.freeReads
  retired := h.retired

/-! ### The lookup operations (R105 to R108) -/

/-- Settles O27: the operand is read as its value already (R101). -/
theorem letterToValueCompletes : Obligations.LetterToValueCompletes := by
  unfold Obligations.LetterToValueCompletes
  intro s b hslot hcode
  refine ⟨l2vBody 1 [symbolValue b] s, ?_, (l2vBody_endsIn 1 [symbolValue b] s).completes rfl rfl rfl, rfl, rfl, rfl⟩
  rw [exec_l2v]
  exact runOperation_of_operands _ rfl (operands_singleton hslot)
    (List.forall_mem_singleton.2 (symbolOperand_of_code hcode))

/-- `V2L` and `V2TR` run their rules on the signed value of the slot. -/
theorem runOperation_valueOperand {s : State} {b : Byte} (body : List Int → State → State)
    (hslot : s.inSlot 0 = some b) (hcode : ValueCode b) :
    runOperation 1 valueOperand 1 body s = .next (body [b.toInt] s) :=
  runOperation_of_operands body rfl (operands_singleton hslot)
    (List.forall_mem_singleton.2 (valueOperand_of_code hcode))

/-- Settles O28: the ROM's letter is the closed form (R102). -/
theorem valueToLetterCompletes : Obligations.ValueToLetterCompletes := by
  unfold Obligations.ValueToLetterCompletes
  intro s b hslot hcode
  refine ⟨v2lBody 1 [b.toInt] s, ?_, ?_, rfl, rfl, rfl⟩
  · rw [exec_v2l]
    exact runOperation_valueOperand _ hslot hcode
  · rw [← valueToLetter_eq_symbolOf (isTryte_toInt hcode)]
    exact (v2lBody_endsIn 1 [b.toInt] s).completes rfl rfl rfl

/-- Settles O29: the trits are those of the ROM's row. -/
theorem valueToTritTripleCompletes : Obligations.ValueToTritTripleCompletes := by
  unfold Obligations.ValueToTritTripleCompletes
  intro s b hslot hcode
  obtain ⟨h0, h1, h2, hsum⟩ := valueToTritTriple_spec (isTryte_toInt hcode)
  refine ⟨v2trBody 1 [b.toInt] s, _, _, _, ?_, h0, h1, h2, hsum,
    (v2trBody_endsIn 1 [b.toInt] s).completes rfl rfl rfl, rfl, rfl, rfl⟩
  rw [exec_v2tr]
  exact runOperation_valueOperand _ hslot hcode

/-- Settles O30: the result is `tritTripleToValue` of the three signed slots (R104). -/
theorem tritTripleToValueCompletes : Obligations.TritTripleToValueCompletes := by
  unfold Obligations.TritTripleToValueCompletes
  intro s b0 b1 b2 hslots h0 h1 h2
  have hcodes : ∀ b ∈ [b0, b1, b2], TritCode b := by simp [h0, h1, h2]
  refine ⟨tr2vBody 3 ([b0, b1, b2].map BitVec.toInt) s, ?_,
    (tr2vBody_endsIn 3 ([b0, b1, b2].map BitVec.toInt) s).completes rfl rfl rfl, rfl, rfl, rfl⟩
  rw [exec_tr2v]
  exact runOperation_of_operands _ rfl hslots fun b hb => tritOperand_of_code (hcodes b hb)

/-! ### The two encoders (R151, R152, R156, R157) -/

/-- On 81 symbol codes `T2B` runs its rule on the symbols' values (R151). -/
theorem exec_t2b_of_symbols {s : State} {bs : List Byte} (hlen : bs.length = 81) (hslots : Operands s bs)
    (hcodes : ∀ b ∈ bs, SymbolCode b) : exec (.t2b 81) s = .next (t2bBody 81 (bs.map symbolValue) s) := by
  rw [exec_t2b]
  exact runOperation_of_operands _ hlen hslots fun b hb => symbolOperand_of_code (hcodes b hb)

/-- On 243 trit codes `TR2B` runs its rule on the trits (R152). -/
theorem exec_tr2b_of_trits {s : State} {ts : List Byte} (hlen : ts.length = 243) (hslots : Operands s ts)
    (hcodes : ∀ b ∈ ts, TritCode b) : exec (.tr2b 243) s = .next (tr2bBody 243 (ts.map BitVec.toInt) s) := by
  rw [exec_tr2b]
  exact runOperation_of_operands _ hlen hslots fun b hb => tritOperand_of_code (hcodes b hb)

/-- Tryte `i` of the trit front end is the value of trits `3i`, `3i + 1` and `3i + 2` (R152). -/
theorem getD_combineTrits (ts : List Int) {i : Nat} (h : i < ts.length / 3) :
    (combineTrits ts).getD i 0 =
      tritTripleToValue (ts.getD (3 * i) 0) (ts.getD (3 * i + 1) 0) (ts.getD (3 * i + 2) 0) := by
  induction ts using combineTrits.induct generalizing i with
  | case1 t0 t1 t2 rest ih =>
    rw [combineTrits]
    cases i with
    | zero => rfl
    | succ i =>
      have hrest : i < rest.length / 3 := by simp only [List.length_cons] at h; omega
      exact ih hrest
  | case2 ts hshort =>
    rw [← length_combineTrits, combineTrits.eq_2 ts hshort] at h
    exact absurd h (Nat.not_lt_zero i)

/-- A trit string whose triples have the values `vs` is combined to `vs`. -/
theorem combineTrits_eq {ts vs : List Int} (hlen : ts.length = 3 * vs.length)
    (h : ∀ i, i < vs.length →
      tritTripleToValue (ts.getD (3 * i) 0) (ts.getD (3 * i + 1) 0) (ts.getD (3 * i + 2) 0) = vs.getD i 0) :
    combineTrits ts = vs := by
  have hdiv : ts.length / 3 = vs.length := by omega
  have hcount : (combineTrits ts).length = vs.length := (length_combineTrits ts).trans hdiv
  refine List.ext_getElem hcount fun i hi hi' => ?_
  rw [← List.getD_eq_getElem _ 0 hi, ← List.getD_eq_getElem _ 0 hi', getD_combineTrits ts (hdiv ▸ hi'), h i hi']

theorem getD_map_toInt (bs : List Byte) (k : Nat) : (bs.map BitVec.toInt).getD k 0 = (bs.getD k 0).toInt :=
  List.getD_map bs 0 BitVec.toInt

theorem getD_map_symbolValue {bs : List Byte} {k : Nat} (h : k < bs.length) :
    (bs.map symbolValue).getD k 0 = symbolValue (bs.getD k 0) := by
  simp [h]

/-- Settles O38: both front ends fill `V` with the same values, and the stages after them are the same. -/
theorem tritAndTryteEncodersAgree : Obligations.TritAndTryteEncodersAgree := by
  unfold Obligations.TritAndTryteEncodersAgree
  intro s s' bs ts hbs hslots hsyms hts hslots' htrits hexpand
  have hfront : combineTrits (ts.map BitVec.toInt) = bs.map symbolValue := by
    refine combineTrits_eq (by simp [hbs, hts]) fun i hi => ?_
    rw [List.length_map] at hi
    rw [getD_map_toInt, getD_map_toInt, getD_map_toInt, getD_map_symbolValue hi]
    exact hexpand i (hbs ▸ hi)
  have ends := t2bBody_endsIn 81 (bs.map symbolValue) s
  have ends' := tr2bBody_endsIn 243 (ts.map BitVec.toInt) s'
  rw [hfront] at ends'
  refine ⟨_, _, exec_t2b_of_symbols hbs hslots hsyms, exec_tr2b_of_trits hts hslots' htrits, ?_, ?_, fun k hk => ?_⟩
  · rw [ends.status]
  · rw [ends'.status]
  · rw [ends.outSlot, ends'.outSlot, length_storeBytes, if_pos hk, if_pos hk]

end Sys2Proof.Machine
end

section
/-! The integer datapath as arithmetic (R120 to R131): the signed view, the byte order, the bias constants, and what
one word-serial step does to the value of `W` and to the NZ bound (R33). -/

namespace Sys2Proof.Machine

open Sys2Proof.Safety

/-! ### The value of `W` by its words -/

theorem limbs_eq_sum (l : List Word) :
    limbs l = ∑ i ∈ Finset.range l.length, (l.getD i 0).toNat * 2 ^ (32 * i) := by
  induction l with
  | nil => rfl
  | cons w ws ih =>
    have hshift : ∀ i, ((w :: ws).getD (i + 1) 0).toNat * 2 ^ (32 * (i + 1)) =
        2 ^ 32 * ((ws.getD i 0).toNat * 2 ^ (32 * i)) := fun i => by
      rw [List.getD_cons_succ, Nat.mul_succ, Nat.pow_add]
      ring
    rw [limbs_cons, ih, List.length_cons, Finset.sum_range_succ', Finset.sum_congr rfl fun i _ => hshift i,
      ← Finset.mul_sum, Nat.mul_zero, Nat.pow_zero, Nat.mul_one, List.getD_cons_zero, Nat.add_comm]

/-- The most significant word over the value of the other eleven. -/
theorem u384_eq_top (w : Words) : u384 w = limbs (w.toList.take 11) + 2 ^ 352 * w[11].toNat := by
  have hlen : (w.toList.take 11).length = 11 := length_take_words (nz := 10) (by decide)
  have hdrop : w.toList.drop 11 = [w[11]] := by
    rw [List.drop_eq_getElem_cons (by rw [length_toList_words]; decide), Vector.getElem_toList]
    simp
  conv_lhs => rw [u384, ← List.take_append_drop 11 w.toList, limbs_append, hlen, hdrop, limbs_cons, limbs_nil,
    Nat.mul_zero, Nat.add_zero, show 32 * 11 = 352 from rfl]

/-! ### The sign and the signed view (R124, R125) -/

theorem isNegative_iff_top (w : Words) : isNegative w = true ↔ 2 ^ 31 ≤ w[11].toNat := by
  rw [isNegative, ← BitVec.msb_eq_getLsbD_last, BitVec.msb_eq_decide, decide_eq_true_iff]

theorem isNegative_iff_u384 (w : Words) : isNegative w = true ↔ 2 ^ 383 ≤ u384 w := by
  have hlen : (w.toList.take 11).length = 11 := length_take_words (nz := 10) (by decide)
  have hlow := limbs_lt (w.toList.take 11)
  rw [hlen, show 32 * 11 = 352 from rfl] at hlow
  have hpow : (2 : Nat) ^ 383 = 2 ^ 352 * 2 ^ 31 := by rw [← Nat.pow_add]
  rw [isNegative_iff_top, u384_eq_top, hpow]
  generalize (2 : Nat) ^ 352 = p at *
  constructor
  · intro htop
    exact (Nat.mul_le_mul_left p htop).trans (Nat.le_add_left _ _)
  · intro hval
    by_contra htop
    have := Nat.mul_le_mul_left p (Nat.succ_le_of_lt (Nat.not_le.1 htop))
    rw [Nat.mul_succ] at this
    omega

theorem s384_eq_signed384 (w : Words) : s384 w = signed384 (u384 w) := by
  have hneg := isNegative_iff_u384 w
  unfold s384 signed384
  by_cases hlt : u384 w < 2 ^ 383
  · rw [if_pos hlt, if_neg fun h => Nat.not_le.2 hlt (hneg.1 h)]
  · rw [if_neg hlt, if_pos (hneg.2 (Nat.not_lt.1 hlt))]

theorem signed384_neg_iff {n : Nat} (h : n < 2 ^ 384) : signed384 n < 0 ↔ 2 ^ 383 ≤ n := by
  unfold signed384
  split <;> omega

/-- The two views differ by a multiple of 2^384. -/
theorem s384_emod (w : Words) : s384 w % 2 ^ 384 = (u384 w : Int) % 2 ^ 384 := by
  unfold s384
  split
  · exact Int.sub_emod_right _ _
  · rfl

theorem compareSigned_lt_iff (a b : Words) : compareSigned a b = .lt ↔ s384 a < s384 b := by
  unfold compareSigned
  split_ifs <;> simp [*]

theorem compareSigned_eq_iff (a b : Words) : compareSigned a b = .eq ↔ s384 a = s384 b := by
  unfold compareSigned
  split_ifs with hlt heq
  · simp [hlt.ne]
  · simp [heq]
  · simp [heq]

theorem compareSigned_gt_iff (a b : Words) : compareSigned a b = .gt ↔ s384 a > s384 b := by
  unfold compareSigned
  split_ifs with hlt heq
  · simp [hlt.le]
  · simp [heq]
  · simp only [true_iff]
    omega

/-- Settles O45: bit 31 of word 11 is the sign of the signed view, and the comparison is by that view. -/
theorem signTestAndCompareAreSigned : Obligations.SignTestAndCompareAreSigned := by
  unfold Obligations.SignTestAndCompareAreSigned
  refine ⟨fun w => ⟨Iff.rfl, ?_⟩, fun a b => ?_⟩
  · rw [isNegative_iff_u384, signed384_neg_iff (u384_lt w)]
  · rw [← s384_eq_signed384, ← s384_eq_signed384]
    exact ⟨compareSigned_lt_iff a b, compareSigned_eq_iff a b, compareSigned_gt_iff a b⟩

/-! ### The byte order (R52, R123) -/

theorem toNat_wordOfBytes (b : List Byte) (j : Nat) :
    (wordOfBytes b j).toNat = (b.getD (44 - 4 * j) 0).toNat * 2 ^ 24 + (b.getD (45 - 4 * j) 0).toNat * 2 ^ 16 +
      (b.getD (46 - 4 * j) 0).toNat * 2 ^ 8 + (b.getD (47 - 4 * j) 0).toNat := by
  rw [wordOfBytes, toNat_append_eq, toNat_append_eq, toNat_append_eq]
  ring

@[simp] theorem getElem_loadBytes (b : List Byte) {j : Nat} (h : j < 12) : (loadBytes b)[j] = wordOfBytes b j := by
  simp [loadBytes]

/-- A sum over bytes, four at a time. -/
theorem sum_range_four_mul (f : Nat → Nat) (n : Nat) :
    ∑ k ∈ Finset.range (4 * n), f k =
      ∑ j ∈ Finset.range n, (f (4 * j) + f (4 * j + 1) + f (4 * j + 2) + f (4 * j + 3)) := by
  induction n with
  | zero => rfl
  | succ n ih =>
    rw [Nat.mul_succ, Finset.sum_range_succ, Finset.sum_range_succ, Finset.sum_range_succ, Finset.sum_range_succ, ih,
      Finset.sum_range_succ]
    ring

/-- The number 48 bytes denote, summed from the least significant byte. -/
theorem bytesToNat_eq_sum_reflect (b : List Byte) :
    bytesToNat b = ∑ k ∈ Finset.range 48, (b.getD (47 - k) 0).toNat * 2 ^ (8 * k) := by
  rw [bytesToNat, ← Finset.sum_range_reflect]
  refine Finset.sum_congr rfl fun k hk => ?_
  have hk : k < 48 := Finset.mem_range.1 hk
  rw [show 48 - 1 - k = 47 - k by omega, show 47 - (47 - k) = k by omega]

theorem u384_loadBytes (b : List Byte) : u384 (loadBytes b) = bytesToNat b := by
  rw [bytesToNat_eq_sum_reflect, sum_range_four_mul _ 12, u384, limbs_eq_sum, length_toList_words]
  refine Finset.sum_congr rfl fun j hj => ?_
  have hj : j < 12 := Finset.mem_range.1 hj
  have hword : (loadBytes b).toList.getD j 0 = wordOfBytes b j := by
    rw [List.getD_eq_getElem _ _ (by rwa [length_toList_words]), Vector.getElem_toList, getElem_loadBytes b hj]
  rw [hword, toNat_wordOfBytes, show 47 - (4 * j + 1) = 46 - 4 * j by omega,
    show 47 - (4 * j + 2) = 45 - 4 * j by omega, show 47 - (4 * j + 3) = 44 - 4 * j by omega,
    show 8 * (4 * j) = 32 * j by ring, show 8 * (4 * j + 1) = 32 * j + 8 by ring,
    show 8 * (4 * j + 2) = 32 * j + 16 by ring, show 8 * (4 * j + 3) = 32 * j + 24 by ring,
    Nat.pow_add, Nat.pow_add, Nat.pow_add]
  ring

/-- Byte `m` of a word of the external bytes is the byte in its slot. -/
theorem getD_bytesOfWord_wordOfBytes (b : List Byte) (j : Nat) {m : Nat} (h : m < 4) :
    (bytesOfWord (wordOfBytes b j)).getD m 0 = b.getD (44 + m - 4 * j) 0 := by
  have h0 := (b.getD (44 - 4 * j) 0).isLt
  have h1 := (b.getD (45 - 4 * j) 0).isLt
  have h2 := (b.getD (46 - 4 * j) 0).isLt
  have h3 := (b.getD (47 - 4 * j) 0).isLt
  have hword := toNat_wordOfBytes b j
  match m, h with
  | 0, _ | 1, _ | 2, _ | 3, _ =>
    simp only [Nat.reduceAdd]
    refine extractLsb'_eq_of_toNat _ ?_
    omega

/-- A word is its four bytes joined again. -/
theorem append_bytesOfWord (w : Word) :
    (bytesOfWord w).getD 0 0 ++ ((bytesOfWord w).getD 1 0 ++ ((bytesOfWord w).getD 2 0 ++ (bytesOfWord w).getD 3 0))
      = w := by
  refine BitVec.eq_of_toNat_eq ?_
  have hw := w.isLt
  simp only [toNat_append_eq, bytesOfWord, List.getD_cons_zero, List.getD_cons_succ, BitVec.extractLsb'_toNat,
    Nat.shiftRight_eq_div_pow]
  omega

theorem getD_flatMap_bytesOfWord (l : List Word) (i : Nat) {m : Nat} (h : m < 4) :
    (l.flatMap bytesOfWord).getD (4 * i + m) 0 = (bytesOfWord (l.getD i 0)).getD m 0 := by
  induction l generalizing i with
  | nil =>
    rw [List.flatMap_nil, List.getD_nil, List.getD_nil]
    match m, h with
    | 0, _ | 1, _ | 2, _ | 3, _ => rfl
  | cons w ws ih =>
    rw [List.flatMap_cons]
    cases i with
    | zero => rw [List.getD_append _ _ _ _ (by rw [length_bytesOfWord]; omega), Nat.mul_zero, Nat.zero_add]; rfl
    | succ i =>
      rw [List.getD_append_right _ _ _ _ (by rw [length_bytesOfWord]; omega), length_bytesOfWord,
        show 4 * (i + 1) + m - 4 = 4 * i + m by omega, ih, List.getD_cons_succ]

/-- Slots `44 - 4j` to `47 - 4j` hold the bytes of word `j` (R52). -/
theorem getD_storeBytes (w : Words) {j m : Nat} (hj : j < 12) (hm : m < 4) :
    (storeBytes w).getD (44 + m - 4 * j) 0 = (bytesOfWord w[j]).getD m 0 := by
  have hword : w.toList.reverse.getD (11 - j) 0 = w[j] := by
    rw [List.getD_eq_getElem _ _ (by rw [List.length_reverse, length_toList_words]; omega), List.getElem_reverse,
      Vector.getElem_toList]
    congr 1
    rw [length_toList_words]
    omega
  rw [storeBytes, show 44 + m - 4 * j = 4 * (11 - j) + m by omega, getD_flatMap_bytesOfWord _ _ hm, hword]

theorem loadBytes_storeBytes (w : Words) : loadBytes (storeBytes w) = w := by
  refine Vector.ext fun j hj => ?_
  rw [getElem_loadBytes _ hj, wordOfBytes, getD_storeBytes w (m := 0) hj (by decide),
    getD_storeBytes w (m := 1) hj (by decide), getD_storeBytes w (m := 2) hj (by decide),
    getD_storeBytes w (m := 3) hj (by decide), append_bytesOfWord]

theorem storeBytes_loadBytes {b : List Byte} (h : b.length = 48) : storeBytes (loadBytes b) = b := by
  refine List.ext_getElem (by rw [length_storeBytes, h]) fun k hk hk' => ?_
  have hword : 11 - k / 4 < 12 := by omega
  have hslot : k = 44 + k % 4 - 4 * (11 - k / 4) := by omega
  have hbyte := getD_storeBytes (loadBytes b) hword (Nat.mod_lt k (by decide))
  rw [getElem_loadBytes b hword, getD_bytesOfWord_wordOfBytes b _ (Nat.mod_lt k (by decide)), ← hslot] at hbyte
  rwa [List.getD_eq_getElem _ _ hk, List.getD_eq_getElem _ _ hk'] at hbyte

/-- Settles O44: every word holds its four slots, the first in its top byte, so each direction undoes the other. -/
theorem byteOrderConversionIsBigEndian : Obligations.ByteOrderConversionIsBigEndian := by
  unfold Obligations.ByteOrderConversionIsBigEndian
  exact ⟨fun b hb => ⟨u384_loadBytes b, storeBytes_loadBytes hb⟩,
    fun w => ⟨length_storeBytes w, loadBytes_storeBytes w⟩⟩

/-! ### Add-small (R128) -/

theorem toList_addSmall (w : Words) (n : Nat) : (addSmall w n).1.toList = (addSmallLoop w.toList n).1 :=
  toList_wordsOfList (by rw [length_addSmallLoop, length_toList_words])

theorem getElem?_addSmall (w : Words) (n : Nat) {j : Nat} (h : j < 12) :
    (addSmallLoop w.toList n).1[j]? = some (addSmall w n).1[j] := by
  rw [← toList_addSmall, List.getElem?_eq_getElem (by rwa [length_toList_words]), Vector.getElem_toList]

theorem u384_addSmall (w : Words) (n : Nat) : u384 (addSmall w n).1 = (u384 w + n) % 2 ^ 384 := by
  have hvalue := addSmallLoop_value w.toList n
  rw [length_toList_words, ← toList_addSmall, show 32 * 12 = 384 from rfl] at hvalue
  exact (Nat.mod_eq_of_lt (u384_lt _)).symm.trans hvalue

/-- The last word the add-small loop writes takes a carry that is neither 0 nor a multiple of 2^32, so it changes,
unless it is the first word and nothing was added to it. -/
theorem addSmallLoop_changes {l : List Word} {c : Nat} (hl : l ≠ []) (hc : c < 2 ^ 32)
    (h : c ≠ 0 ∨ 0 < (addSmallLoop l c).2) :
    (addSmallLoop l c).1[(addSmallLoop l c).2]? ≠ l[(addSmallLoop l c).2]? := by
  induction l generalizing c with
  | nil => exact absurd rfl hl
  | cons w ws ih =>
    have hw := w.isLt
    rw [addSmallLoop] at h ⊢
    dsimp only at h ⊢
    split at h
    · next hstop =>
      rw [if_pos hstop]
      have hc0 : c ≠ 0 := h.resolve_right (Nat.lt_irrefl 0)
      intro heq
      have hsame : (BitVec.ofNat 32 (w.toNat + c)).toNat = w.toNat := congrArg BitVec.toNat (Option.some.inj heq)
      rw [BitVec.toNat_ofNat] at hsame
      omega
    · next hgo =>
      rw [if_neg hgo]
      obtain ⟨hcarry, hws⟩ := not_or.1 hgo
      exact ih hws (by omega) (.inl hcarry)

/-- Settles O47: the loop carries the sum upward, changes no word above the index it answers, and the word at it. -/
theorem addSmallAddsAndBoundsItsWrites : Obligations.AddSmallAddsAndBoundsItsWrites := by
  unfold Obligations.AddSmallAddsAndBoundsItsWrites
  intro w n hn
  have hword : ∀ j (h : j < 12), w.toList[j]? = some w[j] := fun j h => by
    rw [List.getElem?_eq_getElem (by rwa [length_toList_words]), Vector.getElem_toList]
  refine ⟨u384_addSmall w n, addSmall_index_le w n, fun j hj habove => ?_, fun j hj hpos hidx heq => ?_⟩
  · have hkept := addSmallLoop_above w.toList n j habove
    rwa [getElem?_addSmall w n hj, hword j hj, Option.some_inj] at hkept
  · subst hidx
    refine addSmallLoop_changes (fun h => by simpa [h] using length_toList_words w) hn (.inr hpos) ?_
    exact (getElem?_addSmall w n hj).trans ((congrArg some heq).trans (hword _ hj).symm)

/-! ### Multiplication by the radix (R129) -/

/-- A carry past the bound goes to the word above it. -/
theorem mulRadix_of_carry {w : Words} {nz : Nat} (hcarry : (mulLoop (w.toList.take (nz + 1)) 0).2 ≠ 0)
    (hnz : nz < 11) :
    mulRadix w nz = (wordsOfList ((mulLoop (w.toList.take (nz + 1)) 0).1 ++
      (w.toList.drop (nz + 1)).set 0 (BitVec.ofNat 32 (mulLoop (w.toList.take (nz + 1)) 0).2)), nz + 1) :=
  if_pos ⟨hcarry, hnz⟩

/-- With no carry left, or no word to take it, the words above the bound stay. -/
theorem mulRadix_of_not_carry {w : Words} {nz : Nat}
    (h : ¬ ((mulLoop (w.toList.take (nz + 1)) 0).2 ≠ 0 ∧ nz < 11)) :
    mulRadix w nz = (wordsOfList ((mulLoop (w.toList.take (nz + 1)) 0).1 ++ w.toList.drop (nz + 1)), nz) :=
  if_neg h

theorem length_drop_words (w : Words) (nz : Nat) : (w.toList.drop (nz + 1)).length = 11 - nz := by
  rw [List.length_drop, length_toList_words]
  omega

theorem length_mulLoop_take {w : Words} {nz : Nat} (hnz : nz ≤ 11) :
    (mulLoop (w.toList.take (nz + 1)) 0).1.length = nz + 1 := by
  rw [length_mulLoop, length_take_words hnz]

/-- The loop over the words up to the bound multiplies the whole value. -/
theorem mulLoop_take_value {w : Words} {nz : Nat} (hnz : nz ≤ 11) (h : BoundedBy w nz) :
    limbs (mulLoop (w.toList.take (nz + 1)) 0).1 +
      2 ^ (32 * (nz + 1)) * (mulLoop (w.toList.take (nz + 1)) 0).2 = 27 * u384 w := by
  have hvalue := mulLoop_value (w.toList.take (nz + 1)) 0
  rwa [length_take_words hnz, ← u384_eq_limbs_take h, Nat.add_zero] at hvalue

theorem limbs_set_zero {l : List Word} (hl : l ≠ []) (h : ∀ x ∈ l, x = 0) (x : Word) :
    limbs (l.set 0 x) = x.toNat := by
  cases l with
  | nil => exact absurd rfl hl
  | cons y ys =>
    rw [List.set_cons_zero, limbs_cons, limbs_eq_zero (List.forall_mem_cons.1 h).2, Nat.mul_zero, Nat.add_zero]

/-- `MulRadix` multiplies by 27 modulo 2^384. -/
theorem u384_mulRadix {w : Words} {nz : Nat} (hnz : nz ≤ 11) (h : BoundedBy w nz) :
    u384 (mulRadix w nz).1 = 27 * u384 w % 2 ^ 384 := by
  have hvalue := mulLoop_take_value hnz h
  have hlen := length_mulLoop_take (w := w) hnz
  have hzero := (boundedBy_iff_drop w nz).1 h
  have hdrop := length_drop_words w nz
  by_cases hgrow : (mulLoop (w.toList.take (nz + 1)) 0).2 ≠ 0 ∧ nz < 11
  · obtain ⟨hcarry, hlt⟩ := hgrow
    have hsmall := mulLoop_carry_lt (w.toList.take (nz + 1)) (c := 0) (by decide)
    have hexact : u384 (mulRadix w nz).1 = 27 * u384 w := by
      rw [mulRadix_of_carry hcarry hlt, u384_wordsOfList (by rw [List.length_append, List.length_set]; omega),
        limbs_append, limbs_set_zero (List.ne_nil_of_length_pos (by omega)) hzero, BitVec.toNat_ofNat,
        Nat.mod_eq_of_lt (by omega), hlen, hvalue]
    rw [← hexact, Nat.mod_eq_of_lt (u384_lt _)]
  · have hlow : u384 (mulRadix w nz).1 = limbs (mulLoop (w.toList.take (nz + 1)) 0).1 := by
      rw [mulRadix_of_not_carry hgrow, u384_wordsOfList (by rw [List.length_append]; omega), limbs_append,
        limbs_eq_zero hzero, Nat.mul_zero, Nat.add_zero]
    have hmod : 27 * u384 w ≡ u384 (mulRadix w nz).1 [MOD 2 ^ 384] := by
      rw [hlow, ← hvalue]
      rcases (show (mulLoop (w.toList.take (nz + 1)) 0).2 = 0 ∨ nz = 11 by omega) with hnone | rfl
      · rw [hnone, Nat.mul_zero, Nat.add_zero]
      · rw [show 32 * (11 + 1) = 384 from rfl]
        exact Nat.add_mul_mod_self_left _ _ _
    exact (Nat.mod_eq_of_modEq hmod (u384_lt _)).symm

/-- The multiplication keeps the NZ invariant of R33: the bound rises with the carry that leaves it. -/
theorem boundedBy_mulRadix {w : Words} {nz : Nat} (hnz : nz ≤ 11) (h : BoundedBy w nz) :
    BoundedBy (mulRadix w nz).1 (mulRadix w nz).2 := by
  have hlen := length_mulLoop_take (w := w) hnz
  have hzero := (boundedBy_iff_drop w nz).1 h
  have hdrop := length_drop_words w nz
  by_cases hgrow : (mulLoop (w.toList.take (nz + 1)) 0).2 ≠ 0 ∧ nz < 11
  · obtain ⟨hcarry, hlt⟩ := hgrow
    rw [mulRadix_of_carry hcarry hlt, boundedBy_iff_drop,
      toList_wordsOfList (by rw [List.length_append, List.length_set]; omega), List.drop_append, hlen,
      List.drop_eq_nil_of_le (by omega), List.nil_append, show nz + 1 + 1 - (nz + 1) = 1 by omega,
      List.drop_set_of_lt (by decide)]
    exact fun x hx => hzero x (List.mem_of_mem_drop hx)
  · rw [mulRadix_of_not_carry hgrow, boundedBy_iff_drop,
      toList_wordsOfList (by rw [List.length_append]; omega), List.drop_left' hlen]
    exact hzero

/-- Settles O48: the loop multiplies the words up to the bound, and there is nothing above them. -/
theorem mulRadixMultipliesBy27 : Obligations.MulRadixMultipliesBy27 := by
  unfold Obligations.MulRadixMultipliesBy27
  exact fun w nz hnz h => ⟨u384_mulRadix hnz h, boundedBy_mulRadix hnz h, mulRadix_nz_le w hnz⟩

/-! ### Division by the radix (R130), and the bounded steps against the full width (R131) -/

theorem divRadix_rem {w : Words} {nz : Nat} (hnz : nz ≤ 11) (h : BoundedBy w nz) :
    (divRadix w nz).rem = u384 w % 27 := by
  have hvalue := divRadix_value hnz h
  have hrem := divRadix_rem_lt w nz
  omega

/-- Settles O49: the loop divides the words up to the bound, and there is nothing above them. -/
theorem divRadixDividesBy27 : Obligations.DivRadixDividesBy27 := by
  unfold Obligations.DivRadixDividesBy27
  exact fun w nz hnz h => ⟨u384_divRadix_quotient hnz h, divRadix_rem hnz h, boundedBy_divRadix hnz h,
    (divRadix_nz_le w nz).trans hnz⟩

/-- The full width is the bound 11, above which there is no word. -/
theorem boundedBy_eleven (w : Words) : BoundedBy w 11 := fun _ hj hlt => by omega

/-- Settles O50: with either bound the value is the same function of the old one, and the value fixes the words. -/
theorem boundedStepsAgreeWithFullWidth : Obligations.BoundedStepsAgreeWithFullWidth := by
  unfold Obligations.BoundedStepsAgreeWithFullWidth
  intro w nz hnz h
  have hfull := boundedBy_eleven w
  refine ⟨words_eq_of_u384 ?_, words_eq_of_u384 ?_, ?_⟩
  · rw [u384_mulRadix hnz h, u384_mulRadix (le_refl 11) hfull]
  · rw [u384_divRadix_quotient hnz h, u384_divRadix_quotient (le_refl 11) hfull]
  · rw [divRadix_rem hnz h, divRadix_rem (le_refl 11) hfull]

/-! ### The bias constants (R121) -/

theorem u384_halfThree : 2 * u384 halfThree + 1 = 3 ^ 242 := by decide +kernel

theorem u384_trit243 : u384 trit243 = 3 ^ 242 := by decide +kernel

theorem u384_negHalfThree : u384 negHalfThree + u384 halfThree = 2 ^ 384 := by decide +kernel

theorem half_eq_u384 : half = u384 halfThree := by
  have hpow : (3 : Int) ^ 242 = 2 * u384 halfThree + 1 := by exact_mod_cast u384_halfThree.symm
  rw [half, hpow]
  omega

/-- Settles O43: the words' values, and from them the geometric sum and the signed readings. -/
theorem biasConstantsHaveTheirDefinedValues : Obligations.BiasConstantsHaveTheirDefinedValues := by
  unfold Obligations.BiasConstantsHaveTheirDefinedValues
  have hpos : isNegative halfThree = false := by decide
  have hneg : isNegative negHalfThree = true := by decide
  refine ⟨u384_halfThree, ?_, u384_trit243, u384_negHalfThree, ?_, ?_⟩
  · rw [Nat.geomSum_eq (by decide), ← u384_halfThree]
    omega
  · rw [half_eq_u384, s384, hpos]
    rfl
  · have hsum : (u384 negHalfThree : Int) + u384 halfThree = 2 ^ 384 := by
      rw [← Nat.cast_add, u384_negHalfThree, Nat.cast_pow, Nat.cast_ofNat]
    rw [half_eq_u384, s384, hneg, if_pos rfl, ← hsum]
    ring

/-! ### Add and subtract (R126, R127) -/

theorem cast_u384_wordsOfInt (v : Int) : (u384 (wordsOfInt v) : Int) = v % 2 ^ 384 := by
  rw [u384_wordsOfInt, Int.toNat_of_nonneg (Int.emod_nonneg _ (by positivity))]

theorem u384_addWords (w k : Words) : u384 (addWords w k) = (u384 w + u384 k) % 2 ^ 384 := by
  have hcast := cast_u384_wordsOfInt (u384 w + u384 k)
  exact_mod_cast hcast

theorem u384_subtractWords (w k : Words) :
    (u384 (subtractWords w k) : Int) = ((u384 w : Int) - u384 k) % 2 ^ 384 :=
  cast_u384_wordsOfInt _

/-- Settles O46: the signed views are congruent to the unsigned ones, so they add alike. -/
theorem addAndSubtractAreModular : Obligations.AddAndSubtractAreModular := by
  unfold Obligations.AddAndSubtractAreModular
  intro w k
  refine ⟨u384_addWords w k, ?_, u384_subtractWords w k⟩
  refine Int.emod_eq_emod_iff_emod_sub_eq_zero.1 ?_
  rw [s384_emod, addWords, cast_u384_wordsOfInt, Int.emod_emod, Int.add_emod, ← s384_emod w, ← s384_emod k,
    ← Int.add_emod]

end Sys2Proof.Machine
end

section
/-! Canonicalization (R140 to R145): the tryte-level rule, `CanonInt` in the signed view, and the operation `ZLT`. -/

namespace Sys2Proof.Machine

open Sys2Proof.Safety

/-! ### The tryte-level rule (R140) -/

/-- Settles O52: the top trit alone decides which of the two thresholds is passed. -/
theorem zeroLastTritValueDropsTheTopTrit : Obligations.ZeroLastTritValueDropsTheTopTrit := by
  unfold Obligations.ZeroLastTritValueDropsTheTopTrit
  intro v t0 t1 t2 h0 h1 h2 hv
  have hlow : -4 ≤ t0 + 3 * t1 ∧ t0 + 3 * t1 ≤ 4 := by unfold IsTrit at h0 h1; omega
  have hdrop : zeroLastTritValue v = t0 + 3 * t1 := by
    unfold zeroLastTritValue
    rcases h2 with rfl | rfl | rfl <;> split_ifs <;> omega
  rw [hdrop]
  refine ⟨rfl, hlow, ?_, ?_⟩ <;> rcases h2 with rfl | rfl | rfl <;> omega

/-- On a tryte value the rule answers a value in [-4, 4] and takes off 9 times the top trit. -/
theorem zeroLastTritValue_of_isTryte {v : Int} (h : IsTryte v) :
    (-4 ≤ zeroLastTritValue v ∧ zeroLastTritValue v ≤ 4) ∧ (9 : Int) ∣ v - zeroLastTritValue v := by
  obtain ⟨h0, h1, h2, hsum⟩ := valueToTritTriple_spec h
  obtain ⟨hdrop, hrange, -, -⟩ := zeroLastTritValueDropsTheTopTrit v _ _ _ h0 h1 h2 hsum.symm
  refine ⟨hrange, (valueToTritTriple v).2.2, ?_⟩
  rw [hdrop]
  omega

/-! ### The signed view and `W <- v` (R10, R120) -/

theorem s384_bounds (w : Words) : -2 ^ 383 ≤ s384 w ∧ s384 w < 2 ^ 383 := by
  have hlt := u384_lt w
  have hpow : (2 : Nat) ^ 384 = 2 * 2 ^ 383 := by rw [← Nat.pow_succ']
  have hpow' : (2 : Int) ^ 384 = 2 * 2 ^ 383 := pow_succ' _ _
  have hcast : (2 : Int) ^ 383 = ((2 ^ 383 : Nat) : Int) := by rw [Nat.cast_pow, Nat.cast_ofNat]
  rw [s384_eq_signed384, signed384, hpow', hcast]
  rw [hpow] at hlt
  generalize (2 : Nat) ^ 383 = p at *
  split <;> omega

theorem wordsOfInt_congr {a b : Int} (h : a % 2 ^ 384 = b % 2 ^ 384) : wordsOfInt a = wordsOfInt b :=
  words_eq_of_u384 (by rw [u384_wordsOfInt, u384_wordsOfInt, h])

theorem wordsOfInt_u384 (w : Words) : wordsOfInt (u384 w) = w := by
  refine words_eq_of_u384 (Int.ofNat_inj.1 ?_)
  rw [cast_u384_wordsOfInt]
  exact_mod_cast Nat.mod_eq_of_lt (u384_lt w)

/-- `W` is what storing its signed value stores. -/
theorem wordsOfInt_s384 (w : Words) : wordsOfInt (s384 w) = w :=
  (wordsOfInt_congr (s384_emod w)).trans (wordsOfInt_u384 w)

theorem addWords_eq_wordsOfInt (w k : Words) : addWords w k = wordsOfInt (s384 w + u384 k) :=
  wordsOfInt_congr (Int.ModEq.add_right _ (s384_emod w).symm)

theorem subtractWords_eq_wordsOfInt (w k : Words) : subtractWords w k = wordsOfInt (s384 w - u384 k) :=
  wordsOfInt_congr (Int.ModEq.sub_right _ (s384_emod w).symm)

/-- A value that fits the signed view is read back as it was stored. -/
theorem s384_wordsOfInt {v : Int} (hlow : -2 ^ 383 ≤ v) (hhigh : v < 2 ^ 383) : s384 (wordsOfInt v) = v := by
  obtain ⟨hlow', hhigh'⟩ := s384_bounds (wordsOfInt v)
  have hmod : s384 (wordsOfInt v) ≡ v [ZMOD 2 ^ 384] := by
    rw [Int.ModEq, s384_emod, cast_u384_wordsOfInt, Int.emod_emod]
  obtain ⟨c, hc⟩ := hmod.dvd
  rw [show (2 : Int) ^ 384 = 2 * 2 ^ 383 from pow_succ' _ _] at hc
  generalize (2 : Int) ^ 383 = p at *
  have hc0 : c = 0 := by nlinarith
  rw [hc0] at hc
  omega

theorem u384_wordsOfInt_of_lt {v : Int} (hlow : 0 ≤ v) (hhigh : v < 2 ^ 384) : (u384 (wordsOfInt v) : Int) = v := by
  rw [cast_u384_wordsOfInt, Int.emod_eq_of_lt hlow hhigh]

/-! ### The canonical representative modulo 3^242 (R141, R143) -/

theorem three_pow_eq : (3 : Int) ^ 242 = 2 * half + 1 := by
  rw [half_eq_u384]
  exact_mod_cast u384_halfThree.symm

theorem cast_u384_trit243 : (u384 trit243 : Int) = 3 ^ 242 := by exact_mod_cast u384_trit243

/-- The canonical range lies within the signed view, and three of it cover the view. -/
theorem half_bounds : 0 ≤ half ∧ half < 2 ^ 383 ∧ (2 : Int) ^ 383 ≤ 3 * half + 1 := by decide +kernel

theorem canonical_of_mem {s : Int} (hlow : -half ≤ s) (hhigh : s ≤ half) : canonical s = s := by
  rw [canonical, if_neg (Int.not_lt.2 hlow), if_neg (Int.not_lt.2 hhigh)]

/-- One shift by 3^242 brings every value of the signed view into the canonical range. -/
theorem canonical_mem {s : Int} (hlow : -2 ^ 383 ≤ s) (hhigh : s < 2 ^ 383) :
    -half ≤ canonical s ∧ canonical s ≤ half := by
  obtain ⟨-, -, hcover⟩ := half_bounds
  unfold canonical
  rw [three_pow_eq]
  generalize (2 : Int) ^ 383 = p at *
  split_ifs <;> omega

theorem canonical_modEq (s : Int) : canonical s ≡ s [ZMOD 3 ^ 242] := by
  unfold canonical
  split_ifs
  · exact Int.add_emod_right _ _
  · exact Int.sub_emod_right _ _
  · rfl

/-- The canonical range holds one representative of each residue modulo 3^242. -/
theorem eq_of_modEq_of_mem {a b : Int} (ha : -half ≤ a ∧ a ≤ half) (hb : -half ≤ b ∧ b ≤ half)
    (h : a ≡ b [ZMOD 3 ^ 242]) : a = b := by
  obtain ⟨hnonneg, -, -⟩ := half_bounds
  obtain ⟨c, hc⟩ := h.dvd
  rw [three_pow_eq] at hc
  have hc0 : c = 0 := by nlinarith
  rw [hc0] at hc
  omega

theorem s384_halfThree : s384 halfThree = half := by
  obtain ⟨-, -, -, -, hhalf, -⟩ := biasConstantsHaveTheirDefinedValues
  exact hhalf

theorem s384_negHalfThree : s384 negHalfThree = -half := by
  obtain ⟨-, -, -, -, -, hneg⟩ := biasConstantsHaveTheirDefinedValues
  exact hneg

/-! ### `CanonInt` (R141 to R143) -/

theorem isNegative_iff_s384 (w : Words) : isNegative w = true ↔ s384 w < 0 := by
  rw [isNegative_iff_u384, s384_eq_signed384, signed384_neg_iff (u384_lt w)]

/-- `CanonInt` stores the canonical representative: the sign only selects which threshold is compared. -/
theorem canonInt_eq_wordsOfInt (w : Words) : canonInt w = wordsOfInt (canonical (s384 w)) := by
  obtain ⟨hnonneg, -, -⟩ := half_bounds
  unfold canonInt canonical
  simp only [isNegative_iff_s384, compareSigned_lt_iff, compareSigned_gt_iff, s384_halfThree, s384_negHalfThree]
  rw [addWords_eq_wordsOfInt, subtractWords_eq_wordsOfInt, cast_u384_trit243]
  by_cases hneg : s384 w < 0
  · rw [if_pos hneg, if_neg (show ¬ half < s384 w by omega)]
    split_ifs
    · rfl
    · exact (wordsOfInt_s384 w).symm
  · rw [if_neg hneg, if_neg (show ¬ s384 w < -half by omega)]
    split_ifs
    · rfl
    · exact (wordsOfInt_s384 w).symm

/-- Settles O53: the canonical representative fits the signed view. -/
theorem canonIntIsTheSignedRule : Obligations.CanonIntIsTheSignedRule := by
  unfold Obligations.CanonIntIsTheSignedRule
  intro w
  obtain ⟨-, hfits, -⟩ := half_bounds
  obtain ⟨hlow, hhigh⟩ := s384_bounds w
  obtain ⟨hmin, hmax⟩ := canonical_mem hlow hhigh
  rw [canonInt_eq_wordsOfInt]
  exact s384_wordsOfInt (by omega) (by omega)

theorem s384_canonInt_mem (w : Words) : -half ≤ s384 (canonInt w) ∧ s384 (canonInt w) ≤ half := by
  obtain ⟨hlow, hhigh⟩ := s384_bounds w
  rw [canonIntIsTheSignedRule w]
  exact canonical_mem hlow hhigh

theorem canonInt_of_mem {w : Words} (hlow : -half ≤ s384 w) (hhigh : s384 w ≤ half) : canonInt w = w := by
  rw [canonInt_eq_wordsOfInt, canonical_of_mem hlow hhigh, wordsOfInt_s384]

/-- Settles O54: each clause is one about the canonical representative; the second gives the third. -/
theorem canonIntRangeAndFixedPoints : Obligations.CanonIntRangeAndFixedPoints := by
  unfold Obligations.CanonIntRangeAndFixedPoints
  refine ⟨s384_canonInt_mem, fun w => canonInt_of_mem, fun w => ?_, fun w => ?_⟩
  · obtain ⟨hlow, hhigh⟩ := s384_canonInt_mem w
    exact canonInt_of_mem hlow hhigh
  · rw [canonIntIsTheSignedRule w]
    exact canonical_modEq (s384 w)

/-! ### The two rules agree (R142) -/

theorem isTryte_getD {vs : List Int} (h : ∀ v ∈ vs, IsTryte v) (i : Nat) : IsTryte (vs.getD i 0) := by
  rw [List.getD_eq_getElem?_getD]
  cases hget : vs[i]? with
  | none => exact ⟨by decide, by decide⟩
  | some x => exact h x (List.mem_of_getElem? hget)

/-- The trytes below place `n` denote less than half of 27^n. -/
theorem sum_trytes_bounds {f : Nat → Int} (h : ∀ i, IsTryte (f i)) (n : Nat) :
    1 - 27 ^ n ≤ 2 * ∑ i ∈ Finset.range n, f i * 27 ^ i ∧ 2 * ∑ i ∈ Finset.range n, f i * 27 ^ i ≤ 27 ^ n - 1 := by
  induction n with
  | zero => simp
  | succ n ih =>
    obtain ⟨hlow, hhigh⟩ := h n
    obtain ⟨ihlow, ihhigh⟩ := ih
    have hpos : (0 : Int) < 27 ^ n := by positivity
    rw [Finset.sum_range_succ, pow_succ]
    constructor <;> nlinarith

/-- The top tryte over the value of the other 80. -/
theorem trytesVal_eq_top (vs : List Int) :
    trytesVal vs = ∑ i ∈ Finset.range 80, vs.getD i 0 * 27 ^ i + vs.getD 80 0 * 27 ^ 80 := by
  rw [trytesVal, Finset.sum_range_succ]

theorem trytesVal_set_top {vs : List Int} (hlen : vs.length = 81) (z : Int) :
    trytesVal (vs.set 80 z) = ∑ i ∈ Finset.range 80, vs.getD i 0 * 27 ^ i + z * 27 ^ 80 := by
  have htop : (vs.set 80 z).getD 80 0 = z := by simp [hlen]
  rw [trytesVal_eq_top, htop]
  congr 1
  refine Finset.sum_congr rfl fun i hi => ?_
  have hne : 80 ≠ i := (Finset.mem_range.1 hi).ne'
  simp only [List.getD_eq_getElem?_getD, List.getElem?_set_ne hne]

/-- With a top tryte in [-4, 4] the value of 81 trytes is canonical. -/
theorem trytesVal_set_top_mem {vs : List Int} (hlen : vs.length = 81) (hvs : ∀ v ∈ vs, IsTryte v) {z : Int}
    (hz : -4 ≤ z ∧ z ≤ 4) : -half ≤ trytesVal (vs.set 80 z) ∧ trytesVal (vs.set 80 z) ≤ half := by
  obtain ⟨hlow, hhigh⟩ := sum_trytes_bounds (isTryte_getD hvs) 80
  obtain ⟨hzlow, hzhigh⟩ := hz
  have hpow : 9 * (27 : Int) ^ 80 = 2 * half + 1 := by rw [← three_pow_eq]; norm_num
  have hpos : (0 : Int) < 27 ^ 80 := by positivity
  rw [trytesVal_set_top hlen]
  generalize (27 : Int) ^ 80 = p at *
  constructor <;> nlinarith

/-- Canonicalizing the top tryte keeps the value modulo 3^242, the weight of the trit it drops. -/
theorem trytesVal_zeroLastTrit_modEq {vs : List Int} (hlen : vs.length = 81) (hvs : ∀ v ∈ vs, IsTryte v) :
    trytesVal (vs.set 80 (zeroLastTritValue (vs.getD 80 0))) ≡ trytesVal vs [ZMOD 3 ^ 242] := by
  obtain ⟨-, c, hc⟩ := zeroLastTritValue_of_isTryte (isTryte_getD hvs 80)
  have hpow : (3 : Int) ^ 242 = 9 * 27 ^ 80 := by norm_num
  rw [trytesVal_set_top hlen, trytesVal_eq_top, hpow]
  refine Int.modEq_iff_dvd.2 ⟨c, ?_⟩
  linear_combination (27 : Int) ^ 80 * hc

/-- Settles O55: both sides are the canonical representative of the same residue. -/
theorem twoCanonicalizationsAgree : Obligations.TwoCanonicalizationsAgree := by
  unfold Obligations.TwoCanonicalizationsAgree
  intro vs w hlen hvs hval
  obtain ⟨htop, -⟩ := zeroLastTritValue_of_isTryte (isTryte_getD hvs 80)
  refine eq_of_modEq_of_mem (trytesVal_set_top_mem hlen hvs htop) (s384_canonInt_mem w) ?_
  rw [canonIntIsTheSignedRule w, hval]
  exact (trytesVal_zeroLastTrit_modEq hlen hvs).trans (canonical_modEq _).symm

/-! ### `ZLT` (R144) -/

theorem bytesVal_eq_s384 (b : List Byte) : bytesVal b = s384 (loadBytes b) := by
  rw [bytesVal, s384_eq_signed384, u384_loadBytes]

theorem bytesVal_storeBytes (w : Words) : bytesVal (storeBytes w) = s384 w := by
  rw [bytesVal_eq_s384, loadBytes_storeBytes]

/-- Settles O31: the 48 bytes are loaded, canonicalized and stored; the rule writes `W` and the sequencer alone. -/
theorem zeroLastTritCompletes : Obligations.ZeroLastTritCompletes := by
  unfold Obligations.ZeroLastTritCompletes
  intro s bs hlen hslots
  refine ⟨zltBody 48 bs s, _, ?_, (zltBody_endsIn 48 bs s).completes (length_storeBytes _) rfl rfl, ?_, rfl, rfl, ?_⟩
  · have hrun := runOperation_of_operands (f := id) (zltBody 48) hlen hslots fun b _ => byteOperand_eq b
    rwa [List.map_id, ← exec_zlt] at hrun
  · rw [bytesVal_storeBytes, canonIntIsTheSignedRule, bytesVal_eq_s384]
  · exact (bytesVal_storeBytes _).symm

end Sys2Proof.Machine
end

section
/-! What the encoder and the decoder do to the value of `W` (R153, R154, R172 to R174), and from it R145: every result
is canonical. -/

namespace Sys2Proof.Machine

open Sys2Proof.Safety

/-! ### The Horner core (R153) -/

/-- The unbalanced digits of a list of tryte values, as the Horner loop adds them. -/
def biasedDigits (vs : List Int) : List Nat := vs.map fun v => (v + halfTryte).toNat

@[simp] theorem length_biasedDigits (vs : List Int) : (biasedDigits vs).length = vs.length := List.length_map _

theorem biasedDigits_lt {vs : List Int} (h : ∀ v ∈ vs, IsTryte v) : ∀ d ∈ biasedDigits vs, d < 27 := by
  intro d hd
  obtain ⟨v, hv, rfl⟩ := List.mem_map.1 hd
  obtain ⟨hlow, hhigh⟩ := h v hv
  unfold halfTryte
  omega

theorem biasedDigits_reverse_cons (v : Int) (vs : List Int) :
    biasedDigits (v :: vs).reverse = biasedDigits vs.reverse ++ [(v + halfTryte).toNat] := by
  simp [biasedDigits]

theorem getElem_addSmall_above (w : Words) (n : Nat) {j : Nat} (hj : j < 12) (habove : (addSmall w n).2 < j) :
    (addSmall w n).1[j] = w[j] := by
  have hkept := addSmallLoop_above w.toList n j habove
  rwa [getElem?_addSmall w n hj, List.getElem?_eq_getElem (by rwa [length_toList_words]), Vector.getElem_toList,
    Option.some_inj] at hkept

/-- The NZ bound after an addition: the higher of the old bound and the highest word written (R153). -/
theorem boundedBy_addSmall {w : Words} {nz : Nat} (h : BoundedBy w nz) (n : Nat) :
    BoundedBy (addSmall w n).1 (if (addSmall w n).2 > nz then (addSmall w n).2 else nz) := by
  intro j hj hlt
  have habove : (addSmall w n).2 < j ∧ nz < j := by split_ifs at hlt <;> omega
  rw [getElem_addSmall_above w n hj habove.1]
  exact h j hj habove.2

/-- The Horner loop evaluates the digits it uses over the accumulator, in radix 27 modulo 2^384. -/
theorem u384_hornerLoop (vs : List Int) {w : Words} {nz : Nat} (hnz : nz ≤ 11) (h : BoundedBy w nz) :
    u384 (hornerLoop vs (w, nz)).1 = Nat.ofDigits 27 (biasedDigits vs.reverse ++ [u384 w]) % 2 ^ 384 := by
  induction vs generalizing w nz with
  | nil =>
    rw [hornerLoop, List.reverse_nil, biasedDigits, List.map_nil, List.nil_append, Nat.ofDigits_singleton,
      Nat.mod_eq_of_lt (u384_lt w)]
  | cons v vs ih =>
    have hmul := mulRadix_nz_le w hnz
    have hadd := addSmall_index_le (mulRadix w nz).1 (v + halfTryte).toNat
    rw [hornerLoop, ih (by split_ifs <;> assumption) (boundedBy_addSmall (boundedBy_mulRadix hnz h) _),
      u384_addSmall, u384_mulRadix hnz h, Nat.mod_add_mod, biasedDigits_reverse_cons, List.append_assoc,
      List.singleton_append, Nat.ofDigits_append, Nat.ofDigits_append, Nat.ofDigits_singleton, Nat.ofDigits_cons,
      Nat.ofDigits_singleton]
    refine Nat.ModEq.add_left _ (Nat.ModEq.mul_left _ ?_)
    rw [Nat.add_comm (v + halfTryte).toNat]
    exact Nat.mod_modEq _ _

/-- A value of one word is bounded by word 0. -/
theorem boundedBy_wordsOfInt {n : Nat} (h : n < 2 ^ 32) : BoundedBy (wordsOfInt n) 0 := by
  intro j hj hpos
  have hpow : n < 2 ^ (32 * j) := h.trans_le (Nat.pow_le_pow_right (by decide) (by omega))
  have hmod : ((n : Int) % 2 ^ 384).toNat ≤ n := by
    rw [Int.toNat_le]
    exact_mod_cast Nat.mod_le n _
  rw [wordsOfInt, Vector.getElem_ofFn, Nat.div_eq_of_lt (hmod.trans_lt hpow)]
  rfl

/-- The top digit of the encoder, canonicalized and biased (R153). -/
def topDigit (vs : List Int) : Nat := (zeroLastTritValue (vs.getD 80 0) + topBias).toNat

theorem cast_topDigit {vs : List Int} (h : ∀ v ∈ vs, IsTryte v) :
    (topDigit vs : Int) = zeroLastTritValue (vs.getD 80 0) + topBias := by
  obtain ⟨⟨hlow, -⟩, -⟩ := zeroLastTritValue_of_isTryte (isTryte_getD h 80)
  exact Int.toNat_of_nonneg (by unfold topBias; omega)

theorem topDigit_le {vs : List Int} (h : ∀ v ∈ vs, IsTryte v) : topDigit vs ≤ 8 := by
  obtain ⟨⟨-, hhigh⟩, -⟩ := zeroLastTritValue_of_isTryte (isTryte_getD h 80)
  unfold topDigit topBias
  omega

/-- 80 digits below a top digit of at most 8 stay below 9 * 27^80 = 3^242. -/
theorem ofDigits_lt {ds : List Nat} {top : Nat} (hlen : ds.length ≤ 80) (hds : ∀ d ∈ ds, d < 27) (htop : top ≤ 8) :
    Nat.ofDigits 27 (ds ++ [top]) < 3 ^ 242 := by
  have hbelow := Nat.ofDigits_lt_base_pow_length (by decide) hds
  have hpow : 27 ^ ds.length ≤ 27 ^ 80 := Nat.pow_le_pow_right (by decide) hlen
  rw [Nat.ofDigits_append, Nat.ofDigits_singleton]
  calc Nat.ofDigits 27 ds + 27 ^ ds.length * top
      < 27 ^ ds.length * (top + 1) := by rw [Nat.mul_succ, Nat.add_comm]; exact Nat.add_lt_add_left hbelow _
    _ ≤ 27 ^ 80 * 9 := Nat.mul_le_mul hpow (Nat.succ_le_succ htop)
    _ = 3 ^ 242 := by norm_num

/-- The digits of the encoder, least significant first: a number below 3^242. -/
theorem ofDigits_encoder_lt {vs : List Int} (h : ∀ v ∈ vs, IsTryte v) :
    Nat.ofDigits 27 (biasedDigits (vs.take 80) ++ [topDigit vs]) < 3 ^ 242 :=
  ofDigits_lt (by rw [length_biasedDigits]; exact List.length_take_le _ _)
    (biasedDigits_lt fun v hv => h v (List.mem_of_mem_take hv)) (topDigit_le h)

/-- The Horner core leaves the number its biased digits denote in radix 27; it never wraps. -/
theorem u384_hornerCore {vs : List Int} (h : ∀ v ∈ vs, IsTryte v) :
    u384 (hornerCore vs).1 = Nat.ofDigits 27 (biasedDigits (vs.take 80) ++ [topDigit vs]) := by
  have htop := topDigit_le h
  have hinit : u384 (wordsOfInt (topDigit vs)) = topDigit vs :=
    Int.ofNat_inj.1 (u384_wordsOfInt_of_lt (by omega) (by omega))
  rw [hornerCore, ← cast_topDigit h, u384_hornerLoop _ (Nat.zero_le 11) (boundedBy_wordsOfInt (by omega)),
    List.reverse_reverse, hinit]
  exact Nat.mod_eq_of_lt ((ofDigits_encoder_lt h).trans (by decide +kernel))

theorem u384_hornerCore_lt {vs : List Int} (h : ∀ v ∈ vs, IsTryte v) : u384 (hornerCore vs).1 < 3 ^ 242 := by
  rw [u384_hornerCore h]
  exact ofDigits_encoder_lt h

/-! ### The encoder's result (R154) -/

/-- Without the bias the result is the signed value of `W`, in the canonical range. -/
theorem s384_encodeValues {vs : List Int} (h : ∀ v ∈ vs, IsTryte v) :
    s384 (encodeValues vs) = u384 (hornerCore vs).1 - half ∧
      -half ≤ s384 (encodeValues vs) ∧ s384 (encodeValues vs) ≤ half := by
  have hlt : (u384 (hornerCore vs).1 : Int) < 2 * half + 1 := by
    rw [← three_pow_eq]
    exact_mod_cast u384_hornerCore_lt h
  obtain ⟨-, hfits, -⟩ := half_bounds
  have hval : s384 (encodeValues vs) = u384 (hornerCore vs).1 - half := by
    rw [encodeValues, removeBias, subtractWords, ← half_eq_u384]
    exact s384_wordsOfInt (by omega) (by omega)
  rw [hval]
  exact ⟨rfl, by omega, by omega⟩

/-! ### The decoder's operand and its top tryte (R172, R174) -/

theorem u384_biasedOperand (bs : List Byte) :
    (u384 (biasedOperand bs) : Int) = canonical (bytesVal bs) + half := by
  obtain ⟨hlow, hhigh⟩ := s384_canonInt_mem (loadBytes bs)
  obtain ⟨-, hfits, -⟩ := half_bounds
  have hpow : (2 : Int) ^ 384 = 2 * 2 ^ 383 := pow_succ' _ _
  rw [biasedOperand, addWords_eq_wordsOfInt, ← half_eq_u384, u384_wordsOfInt_of_lt (by omega) (by omega),
    canonIntIsTheSignedRule, bytesVal_eq_s384]

theorem u384_biasedOperand_lt (bs : List Byte) : u384 (biasedOperand bs) < 3 ^ 242 := by
  obtain ⟨-, hhigh⟩ := s384_canonInt_mem (loadBytes bs)
  rw [canonIntIsTheSignedRule, ← bytesVal_eq_s384] at hhigh
  have hlt : (u384 (biasedOperand bs) : Int) < 3 ^ 242 := by
    rw [u384_biasedOperand, three_pow_eq]
    omega
  exact_mod_cast hlt

/-- What 80 divisions leave of a value below 3^242 = 9 * 27^80 (R174). -/
theorem u384_divideOperand_w_le (bs : List Byte) : u384 (divideOperand bs).w ≤ 8 := by
  have hlt := u384_biasedOperand_lt bs
  rw [show 3 ^ 242 = 27 ^ 80 * 9 by norm_num] at hlt
  rw [u384_divideOperand_w]
  exact Nat.le_of_lt_succ (Nat.div_lt_of_lt_mul hlt)

/-- The top tryte is the quotient less the top bias: the bias of a digit puts it below the lower threshold. -/
theorem topTryte_eq {w : Words} (h : u384 w ≤ 8) : topTryte w = (u384 w : Int) - 4 := by
  unfold topTryte zeroLastTritValue halfTryte
  rw [if_neg (by omega), if_pos (by omega)]
  omega

theorem topTryte_divideOperand_mem (bs : List Byte) :
    -4 ≤ topTryte (divideOperand bs).w ∧ topTryte (divideOperand bs).w ≤ 4 := by
  have hle := u384_divideOperand_w_le bs
  rw [topTryte_eq hle]
  omega

/-! ### The last element of a decoder's result -/

theorem length_divideOperand_digits (bs : List Byte) : (divideOperand bs).digits.length = 80 := by
  rw [divideOperand]
  exact length_divisionLoop_digits _ _ _

theorem getElem?_symbolResults_top (bs : List Byte) :
    ((decodeValues bs).map valueToLetter)[80]? = some (valueToLetter (topTryte (divideOperand bs).w)) := by
  rw [decodeValues, List.getElem?_map, List.getElem?_append_right (by rw [length_divideOperand_digits]),
    length_divideOperand_digits]
  rfl

theorem getElem?_tritResults_top (bs : List Byte) :
    ((decodeValues bs).flatMap tritSlots)[242]? =
      some (slotOfInt (valueToTritTriple (topTryte (divideOperand bs).w)).2.2) := by
  have hlen : ((divideOperand bs).digits.flatMap tritSlots).length = 240 := by
    simp [List.length_flatMap, length_divideOperand_digits]
  rw [decodeValues, List.flatMap_append, List.getElem?_append_right (by rw [hlen]; decide), hlen]
  rfl

/-- The symbols of the values in [-4, 4]. -/
theorem valueToLetter_of_small {v : Int} (hlow : -4 ≤ v) (hhigh : v ≤ 4) :
    valueToLetter v ∈ ([0x57, 0x58, 0x59, 0x5A, 0x39, 0x41, 0x42, 0x43, 0x44] : List Byte) := by
  have hrows : ∀ row ∈ tryteRom, -4 ≤ row.value → row.value ≤ 4 →
      row.symbol ∈ ([0x57, 0x58, 0x59, 0x5A, 0x39, 0x41, 0x42, 0x43, 0x44] : List Byte) := by decide
  obtain ⟨row, hrow, rfl⟩ := exists_row_of_isTryte (v := v) ⟨by omega, by omega⟩
  rw [valueToLetter_value hrow]
  exact hrows row hrow hlow hhigh

/-- The top trit of a value in [-4, 4] is 0. -/
theorem valueToTritTriple_top_of_small {v : Int} (hlow : -4 ≤ v) (hhigh : v ≤ 4) :
    (valueToTritTriple v).2.2 = 0 := by
  obtain ⟨h0, h1, h2, hsum⟩ := valueToTritTriple_spec (v := v) ⟨by omega, by omega⟩
  obtain ⟨-, -, habove, hbelow⟩ := zeroLastTritValueDropsTheTopTrit v _ _ _ h0 h1 h2 hsum.symm
  rcases h2 with h2 | h2 | h2
  · have := hbelow.2 h2
    omega
  · exact h2
  · have := habove.2 h2
    omega

/-! ### Results are canonical (R145) -/

/-- An operation that ends DONE ran its rule, on elements its kind accepts. -/
theorem runOperation_done {α : Type} {expected len : Nat} {element : Byte → Option α}
    {body : List α → State → State} {s t : State} (hdone : t.status.state = .done)
    (h : runOperation expected element len body s = .next t) :
    ∃ xs, (∀ x ∈ xs, ∃ b, element b = some x) ∧ t = body xs s := by
  obtain ⟨e, rfl⟩ | hran := runOperation_next h
  · rw [raiseError_status] at hdone
    cases hdone
  · exact hran

/-- The 48 result slots hold a canonical integer. -/
def CanonicalResult (t : State) : Prop :=
  ∃ rs : List Byte, rs.length = 48 ∧ (∀ k, k < 48 → t.outSlot k = rs[k]?) ∧ -half ≤ bytesVal rs ∧ bytesVal rs ≤ half

theorem canonicalResult_of_endsIn {s t : State} {w : Words} (h : EndsIn (storeBytes w) s t)
    (hw : -half ≤ s384 w ∧ s384 w ≤ half) : CanonicalResult t := by
  refine ⟨storeBytes w, length_storeBytes w, fun k hk => ?_, ?_⟩
  · rw [h.outSlot, length_storeBytes, if_pos hk]
  · rwa [bytesVal_storeBytes]

theorem exec_t2b_canonicalResult {len : Nat} {s t : State} (hdone : t.status.state = .done)
    (h : exec (.t2b len) s = .next t) : CanonicalResult t := by
  rw [exec_t2b] at h
  obtain ⟨vs, hvs, rfl⟩ := runOperation_done hdone h
  have htrytes : ∀ v ∈ vs, IsTryte v := fun v hv => (hvs v hv).elim fun _ hb => isTryte_of_symbolOperand hb
  exact canonicalResult_of_endsIn (t2bBody_endsIn len vs s) (s384_encodeValues htrytes).2

theorem exec_tr2b_canonicalResult {len : Nat} {s t : State} (hdone : t.status.state = .done)
    (h : exec (.tr2b len) s = .next t) : CanonicalResult t := by
  rw [exec_tr2b] at h
  obtain ⟨ts, hts, rfl⟩ := runOperation_done hdone h
  have htrytes : ∀ v ∈ combineTrits ts, IsTryte v :=
    isTryte_combineTrits fun t ht => (hts t ht).elim fun _ hb => isTrit_of_tritOperand hb
  exact canonicalResult_of_endsIn (tr2bBody_endsIn len ts s) (s384_encodeValues htrytes).2

theorem exec_zlt_canonicalResult {len : Nat} {s t : State} (hdone : t.status.state = .done)
    (h : exec (.zlt len) s = .next t) : CanonicalResult t := by
  rw [exec_zlt] at h
  obtain ⟨bs, -, rfl⟩ := runOperation_done hdone h
  exact canonicalResult_of_endsIn (zltBody_endsIn len bs s) (s384_canonInt_mem _)

theorem exec_b2tr_outSlot_top {len : Nat} {s t : State} (hdone : t.status.state = .done)
    (h : exec (.b2tr len) s = .next t) : t.outSlot 242 = some 0x00 := by
  rw [exec_b2tr] at h
  obtain ⟨bs, -, rfl⟩ := runOperation_done hdone h
  obtain ⟨hlow, hhigh⟩ := topTryte_divideOperand_mem bs
  rw [(b2trBody_endsIn len bs s).outSlot, length_tritResults, if_pos (by decide), getElem?_tritResults_top,
    valueToTritTriple_top_of_small hlow hhigh]
  rfl

theorem exec_b2t_outSlot_top {len : Nat} {s t : State} (hdone : t.status.state = .done)
    (h : exec (.b2t len) s = .next t) :
    ∃ b, t.outSlot 80 = some b ∧ b ∈ ([0x57, 0x58, 0x59, 0x5A, 0x39, 0x41, 0x42, 0x43, 0x44] : List Byte) := by
  rw [exec_b2t] at h
  obtain ⟨bs, -, rfl⟩ := runOperation_done hdone h
  obtain ⟨hlow, hhigh⟩ := topTryte_divideOperand_mem bs
  refine ⟨_, ?_, valueToLetter_of_small hlow hhigh⟩
  rw [(b2tBody_endsIn len bs s).outSlot, List.length_map, length_decodeValues, if_pos (by decide),
    getElem?_symbolResults_top]

/-- Settles O39: operation by operation, from the range of the value the encoder, `CanonInt` or the top tryte has. -/
theorem resultsAreAlwaysCanonical : Obligations.ResultsAreAlwaysCanonical := by
  unfold Obligations.ResultsAreAlwaysCanonical
  intro s t len hdone
  refine ⟨?_, exec_b2tr_outSlot_top hdone, exec_b2t_outSlot_top hdone⟩
  rintro (h | h | h)
  · exact exec_t2b_canonicalResult hdone h
  · exact exec_tr2b_canonicalResult hdone h
  · exact exec_zlt_canonicalResult hdone h

end Sys2Proof.Machine
end

section
/-! The encoder (R150 to R159): the integer it makes of `V`, the operations T2B and TR2B, and the decoder undoing the
encoder. -/

namespace Sys2Proof.Machine

open Sys2Proof.Safety

/-! ### The value the Horner core leaves in `W` (R153, R158) -/

theorem biasedDigits_cons (v : Int) (vs : List Int) :
    biasedDigits (v :: vs) = (v + halfTryte).toNat :: biasedDigits vs := rfl

/-- The number that the biased digits of tryte values denote in radix 27. -/
theorem cast_ofDigits_biasedDigits {vs : List Int} (h : ∀ v ∈ vs, IsTryte v) :
    ((Nat.ofDigits 27 (biasedDigits vs) : Nat) : Int) = ∑ i ∈ Finset.range vs.length, (vs.getD i 0 + 13) * 27 ^ i := by
  induction vs with
  | nil => rfl
  | cons v vs ih =>
    obtain ⟨⟨hlow, -⟩, hvs⟩ := List.forall_mem_cons.1 h
    have hdigit : ((v + halfTryte).toNat : Int) = v + 13 := Int.toNat_of_nonneg (by unfold halfTryte; omega)
    rw [biasedDigits_cons, Nat.ofDigits_cons, Nat.cast_add, Nat.cast_mul, hdigit, ih hvs, List.length_cons,
      Finset.sum_range_succ', Finset.mul_sum, add_comm]
    congr 1
    · refine Finset.sum_congr rfl fun i _ => ?_
      rw [List.getD_cons_succ, pow_succ]
      push_cast
      ring
    · rw [List.getD_cons_zero, pow_zero, mul_one]

/-- Settles O56: the number the biased digits denote, the top digit last. -/
theorem hornerCoreBuildsTheBiasedSum : Obligations.HornerCoreBuildsTheBiasedSum := by
  unfold Obligations.HornerCoreBuildsTheBiasedSum
  intro vs hlen hvs
  have hbelow : (vs.take 80).length = 80 := by rw [List.length_take, hlen]; rfl
  refine ⟨?_, Nat.le_sub_one_of_lt (u384_hornerCore_lt hvs)⟩
  rw [u384_hornerCore hvs, Nat.ofDigits_append, Nat.ofDigits_singleton, length_biasedDigits, hbelow, Nat.cast_add,
    Nat.cast_mul, cast_topDigit hvs, cast_ofDigits_biasedDigits fun v hv => hvs v (List.mem_of_mem_take hv), hbelow,
    add_comm, Nat.cast_pow, mul_comm]
  congr 1
  refine Finset.sum_congr rfl fun i hi => ?_
  rw [List.getD_eq_getElem?_getD, List.getElem?_take_of_lt (Finset.mem_range.1 hi), ← List.getD_eq_getElem?_getD]

/-! ### The encoder's result (R154, R159) -/

/-- The bias in radix 27: 13 at each of the 80 digits and 4 at the top one. -/
theorem half_eq_bias_digits : half = 4 * 27 ^ 80 + ∑ i ∈ Finset.range 80, 13 * 27 ^ i := by
  have hgeom : (27 - 1 : Int) * ∑ i ∈ Finset.range 80, 27 ^ i = 27 ^ 80 - 1 := mul_geom_sum 27 80
  have hpow : 9 * (27 : Int) ^ 80 = 2 * half + 1 := by rw [← three_pow_eq]; norm_num
  rw [← Finset.mul_sum]
  linarith

/-- Taking the bias off every digit leaves the value of the trytes, the top one canonicalized. -/
theorem s384_encodeValues_eq_trytesVal {vs : List Int} (hlen : vs.length = 81) (hvs : ∀ v ∈ vs, IsTryte v) :
    s384 (encodeValues vs) = trytesVal (vs.set 80 (zeroLastTritValue (vs.getD 80 0))) := by
  obtain ⟨hsub, -⟩ := s384_encodeValues hvs
  obtain ⟨hsum, -⟩ := hornerCoreBuildsTheBiasedSum vs hlen hvs
  rw [hsub, hsum, half_eq_bias_digits, trytesVal_set_top hlen]
  simp only [add_mul, Finset.sum_add_distrib]
  ring

/-! ### The tryte-value buffer (R31) -/

theorem getElem_tryteBuffer (vs : List Int) {i : Nat} (h : i < 81) : (tryteBuffer vs)[i] = vs.getD i 0 := by
  simp [tryteBuffer]

theorem toList_tryteBuffer {vs : List Int} (h : vs.length = 81) : (tryteBuffer vs).toList = vs := by
  refine List.ext_getElem (by rw [Vector.length_toList, h]) fun i hi hi' => ?_
  rw [Vector.getElem_toList, getElem_tryteBuffer vs (h ▸ hi'), List.getD_eq_getElem vs 0 hi']

/-! ### T2B and TR2B (R156, R157) -/

theorem isTryte_map_symbolValue {bs : List Byte} (h : ∀ b ∈ bs, SymbolCode b) :
    ∀ v ∈ bs.map symbolValue, IsTryte v :=
  List.forall_mem_map.2 fun b hb => isTryte_symbolValue (h b hb)

/-- Settles O32: the symbols' values are 81 tryte values, and the encoder stores `W`. -/
theorem trytesToBytesCompletes : Obligations.TrytesToBytesCompletes := by
  unfold Obligations.TrytesToBytesCompletes
  intro s bs hlen hslots hcodes
  have hvlen : (bs.map symbolValue).length = 81 := by rw [List.length_map, hlen]
  refine ⟨_, _, exec_t2b_of_symbols hlen hslots hcodes,
    (t2bBody_endsIn 81 _ s).completes (length_storeBytes _) rfl rfl, ?_, toList_tryteBuffer hvlen,
    (bytesVal_storeBytes _).symm⟩
  rw [bytesVal_storeBytes, s384_encodeValues_eq_trytesVal hvlen (isTryte_map_symbolValue hcodes),
    getD_map_symbolValue (by rw [hlen]; decide)]

/-- A sum over trits, three at a time. -/
theorem sum_range_three_mul (f : Nat → Int) (n : Nat) :
    ∑ k ∈ Finset.range (3 * n), f k = ∑ i ∈ Finset.range n, (f (3 * i) + f (3 * i + 1) + f (3 * i + 2)) := by
  induction n with
  | zero => rfl
  | succ n ih =>
    rw [Nat.mul_succ, Finset.sum_range_succ, Finset.sum_range_succ, Finset.sum_range_succ, ih, Finset.sum_range_succ]
    ring

/-- The trit front end keeps the value (R152). -/
theorem trytesVal_combineTrits {ts : List Int} (h : ts.length = 243) : trytesVal (combineTrits ts) = tritsVal ts := by
  have hsum := sum_range_three_mul (fun k => ts.getD k 0 * 3 ^ k) 81
  rw [tritsVal, trytesVal, show 243 = 3 * 81 from rfl, hsum]
  refine Finset.sum_congr rfl fun i hi => ?_
  have hpow : (27 : Int) ^ i = 3 ^ (3 * i) := by rw [pow_mul]; norm_num
  rw [getD_combineTrits ts (by rw [h]; exact Finset.mem_range.1 hi), tritTripleToValue, hpow, pow_succ, pow_succ]
  ring

theorem getD_set_self {xs : List Int} {k : Nat} (x : Int) (h : k < xs.length) : (xs.set k x).getD k 0 = x := by
  rw [List.getD_eq_getElem?_getD, List.getElem?_set_self h, Option.getD_some]

theorem getD_set_of_ne (xs : List Int) {j k : Nat} (x : Int) (h : j ≠ k) : (xs.set j x).getD k 0 = xs.getD k 0 := by
  rw [List.getD_eq_getElem?_getD, List.getElem?_set_ne h, ← List.getD_eq_getElem?_getD]

/-- Canonicalizing the top tryte of the trit front end is taking trit 242 as 0 (R140, R159). -/
theorem combineTrits_set_last {ts : List Int} (hlen : ts.length = 243) (hts : ∀ t ∈ ts, IsTrit t) :
    combineTrits (ts.set 242 0) =
      (combineTrits ts).set 80 (zeroLastTritValue ((combineTrits ts).getD 80 0)) := by
  have hcount : (combineTrits ts).length = 81 := by rw [length_combineTrits, hlen]
  refine combineTrits_eq (by rw [List.length_set, List.length_set, hcount, hlen]) fun i hi => ?_
  rw [List.length_set, hcount] at hi
  have htriple := getD_combineTrits ts (i := i) (by rw [hlen]; exact hi)
  rw [getD_set_of_ne ts 0 (by omega), getD_set_of_ne ts 0 (by omega)]
  obtain rfl | hne := eq_or_ne i 80
  · have htrit : ∀ k, k < 243 → IsTrit (ts.getD k 0) := fun k hk => by
      rw [List.getD_eq_getElem ts 0 (hlen ▸ hk)]
      exact hts _ (List.getElem_mem _)
    obtain ⟨hdrop, -⟩ := zeroLastTritValueDropsTheTopTrit _ _ _ _ (htrit _ (by decide)) (htrit _ (by decide))
      (htrit _ (by decide)) htriple
    rw [getD_set_self 0 (by rw [hlen]; decide), getD_set_self _ (hcount ▸ hi), hdrop, tritTripleToValue, mul_zero,
      add_zero]
  · rw [getD_set_of_ne ts 0 (by omega), getD_set_of_ne _ _ hne.symm, htriple]

/-- Settles O33: the trit front end makes 81 tryte values of the same value, and dropping the top trit of the top tryte
drops trit 242. -/
theorem tritsToBytesCompletes : Obligations.TritsToBytesCompletes := by
  unfold Obligations.TritsToBytesCompletes
  intro s bs hlen hslots hcodes
  have htlen : (bs.map BitVec.toInt).length = 243 := by rw [List.length_map, hlen]
  have hvlen : (combineTrits (bs.map BitVec.toInt)).length = 81 := by rw [length_combineTrits, htlen]
  have htrits : ∀ t ∈ bs.map BitVec.toInt, IsTrit t :=
    List.forall_mem_map.2 fun b hb => isTrit_toInt (hcodes b hb)
  refine ⟨_, _, exec_tr2b_of_trits hlen hslots hcodes,
    (tr2bBody_endsIn 243 _ s).completes (length_storeBytes _) rfl rfl, ?_, fun i hi => ?_, ?_,
    (bytesVal_storeBytes _).symm⟩
  · rw [bytesVal_storeBytes, s384_encodeValues_eq_trytesVal hvlen (isTryte_combineTrits htrits),
      ← combineTrits_set_last htlen htrits, trytesVal_combineTrits (by rw [List.length_set, htlen])]
  · refine (getElem_tryteBuffer _ hi).trans ?_
    rw [getD_combineTrits _ (by rw [htlen]; exact hi), tritTripleToValue, getD_map_toInt, getD_map_toInt,
      getD_map_toInt]
  · exact (congrArg trytesVal (toList_tryteBuffer hvlen)).trans (trytesVal_combineTrits htlen)

/-! ### The decoder undoes the encoder (R159) -/

/-- Each division takes off the lowest digit that the Horner loop put on (R153, R173). -/
theorem divisionLoop_of_ofDigits {vs : List Int} (hvs : ∀ v ∈ vs, IsTryte v) {q nz : Nat} {w : Words}
    (hnz : nz ≤ 11) (hbound : BoundedBy w nz) (hw : u384 w = Nat.ofDigits 27 (biasedDigits vs ++ [q])) :
    (divisionLoop vs.length w nz).digits = vs ∧ u384 (divisionLoop vs.length w nz).w = q := by
  induction vs generalizing w nz with
  | nil => exact ⟨rfl, hw.trans Nat.ofDigits_singleton⟩
  | cons v vs ih =>
    obtain ⟨⟨hlow, hhigh⟩, hrest⟩ := List.forall_mem_cons.1 hvs
    have hvalue := divRadix_value hnz hbound
    have hrem := divRadix_rem_lt w nz
    rw [hw, biasedDigits_cons, List.cons_append, Nat.ofDigits_cons] at hvalue
    have hquot : u384 (divRadix w nz).quotient = Nat.ofDigits 27 (biasedDigits vs ++ [q]) := by
      unfold halfTryte at hvalue
      omega
    have hdigit : ((divRadix w nz).rem : Int) - halfTryte = v := by
      unfold halfTryte at hvalue ⊢
      omega
    obtain ⟨hdigits, htop⟩ := ih hrest ((divRadix_nz_le w nz).trans hnz) (boundedBy_divRadix hnz hbound) hquot
    rw [List.length_cons, divisionLoop]
    exact ⟨by rw [hdigit, hdigits], htop⟩

/-- The decoder's biased operand is the accumulator of the Horner core: the encoder's integer is canonical. -/
theorem u384_biasedOperand_encoding {vs : List Int} (hvs : ∀ v ∈ vs, IsTryte v) :
    u384 (biasedOperand (storeBytes (encodeValues vs))) = u384 (hornerCore vs).1 := by
  obtain ⟨hval, hlow, hhigh⟩ := s384_encodeValues hvs
  have hbias := u384_biasedOperand (storeBytes (encodeValues vs))
  rw [bytesVal_storeBytes, canonical_of_mem hlow hhigh, hval] at hbias
  omega

/-- Decoding an encoding gives the trytes back, the top one canonicalized. -/
theorem decodeValues_encoding {vs : List Int} (hlen : vs.length = 81) (hvs : ∀ v ∈ vs, IsTryte v) :
    decodeValues (storeBytes (encodeValues vs)) = vs.take 80 ++ [zeroLastTritValue (vs.getD 80 0)] := by
  have hbelow : (vs.take 80).length = 80 := by rw [List.length_take, hlen]; rfl
  have hloop := divisionLoop_of_ofDigits (fun v hv => hvs v (List.mem_of_mem_take hv)) (highestNonzero_le _)
    (boundedBy_highestNonzero _) ((u384_biasedOperand_encoding hvs).trans (u384_hornerCore hvs))
  rw [hbelow, ← divideOperand] at hloop
  obtain ⟨hdigits, htop⟩ := hloop
  rw [decodeValues, hdigits, topTryte_eq (by rw [htop]; exact topDigit_le hvs), htop, cast_topDigit hvs]
  unfold topBias
  rw [add_sub_cancel_right]

theorem zeroLastTritValue_of_small {v : Int} (hlow : -4 ≤ v) (hhigh : v ≤ 4) : zeroLastTritValue v = v := by
  rw [zeroLastTritValue, if_neg (Int.not_lt.2 hhigh), if_neg (Int.not_lt.2 hlow)]

theorem decodeValues_encoding_of_small_top {vs : List Int} (hlen : vs.length = 81) (hvs : ∀ v ∈ vs, IsTryte v)
    (hlow : -4 ≤ vs.getD 80 0) (hhigh : vs.getD 80 0 ≤ 4) : decodeValues (storeBytes (encodeValues vs)) = vs := by
  have htop : 80 < vs.length := by rw [hlen]; decide
  rw [decodeValues_encoding hlen hvs, zeroLastTritValue_of_small hlow hhigh, List.getD_eq_getElem vs 0 htop,
    List.take_append_getElem htop]
  exact List.take_of_length_le hlen.le

/-- The symbol of a symbol code's value is that code (R104). -/
theorem map_valueToLetter_symbolValue {bs : List Byte} (h : ∀ b ∈ bs, SymbolCode b) :
    (bs.map symbolValue).map valueToLetter = bs := by
  obtain ⟨-, -, hinverse, -⟩ := lookupFunctionsAreMutuallyInverse
  rw [List.map_map]
  exact (List.map_congr_left fun b hb => hinverse b _ (symbolOperand_of_code (h b hb))).trans (List.map_id bs)

/-- On 48 bytes `B2T` runs its rule on the bytes themselves (R177). -/
theorem exec_b2t_of_bytes {s : State} {bs : List Byte} (hlen : bs.length = 48) (hslots : Operands s bs) :
    exec (.b2t 48) s = .next (b2tBody 48 bs s) := by
  have hrun := runOperation_of_operands (f := id) (b2tBody 48) hlen hslots fun b _ => byteOperand_eq b
  rwa [List.map_id, ← exec_b2t] at hrun

/-- Settles O36: the bytes are those of the encoder, which the decoder undoes, and the symbols are those of the
values. -/
theorem decodingAnEncodingReturnsTheSymbols : Obligations.DecodingAnEncodingReturnsTheSymbols := by
  unfold Obligations.DecodingAnEncodingReturnsTheSymbols
  rintro s s' bs rs hlen hslots hcodes hlow hhigh hrlen ⟨t, hexec, hresults⟩ hslots'
  rw [exec_t2b_of_symbols hlen hslots hcodes] at hexec
  cases hexec
  have hbytes : rs = storeBytes (encodeValues (bs.map symbolValue)) := by
    refine List.ext_getElem? fun k => ?_
    rcases Nat.lt_or_ge k 48 with hk | hk
    · rw [← hresults k hk, (t2bBody_endsIn 81 _ s).outSlot, length_storeBytes, if_pos hk]
    · rw [List.getElem?_eq_none (hrlen ▸ hk), List.getElem?_eq_none (by rwa [length_storeBytes])]
  have htop : (bs.map symbolValue).getD 80 0 = symbolValue (bs.getD 80 0) :=
    getD_map_symbolValue (by rw [hlen]; decide)
  have hdecode : (decodeValues rs).map valueToLetter = bs := by
    rw [hbytes, decodeValues_encoding_of_small_top (by rw [List.length_map, hlen]) (isTryte_map_symbolValue hcodes)
      (htop ▸ hlow) (htop ▸ hhigh), map_valueToLetter_symbolValue hcodes]
  have ends := b2tBody_endsIn 48 rs s'
  rw [hdecode] at ends
  exact ⟨_, exec_b2t_of_bytes hrlen hslots', by rw [ends.status],
    fun k hk => by rw [ends.outSlot, if_pos (hlen ▸ hk)]⟩

end Sys2Proof.Machine
end

section
/-! The decoder (R170 to R179): the digits and the quotient the division loop leaves, the operations B2T and B2TR, and
the encoder undoing the decoder. -/

namespace Sys2Proof.Machine

open Sys2Proof.Safety

/-! ### The digits of the division loop (R173) -/

/-- The digits are those of the value in radix 27, each less its bias; the bound has no part in them. -/
theorem divisionLoop_digits (n : Nat) {w : Words} {nz : Nat} (hnz : nz ≤ 11) (h : BoundedBy w nz) :
    (divisionLoop n w nz).digits = (List.range n).map fun i => ((u384 w / 27 ^ i % 27 : Nat) : Int) - 13 := by
  induction n generalizing w nz with
  | zero => rfl
  | succ n ih =>
    rw [divisionLoop, ih ((divRadix_nz_le w nz).trans hnz) (boundedBy_divRadix hnz h), List.range_succ_eq_map,
      List.map_cons, List.map_map, divRadix_rem hnz h, pow_zero, Nat.div_one]
    refine congrArg (List.cons _) (List.map_congr_left fun i _ => ?_)
    rw [Function.comp_apply, u384_divRadix_quotient hnz h, Nat.div_div_eq_div_mul, ← Nat.pow_succ']

theorem boundedBy_of_highestNonzero_le {w : Words} {nz : Nat} (h : highestNonzero w ≤ nz) : BoundedBy w nz :=
  fun j hj hlt => boundedBy_highestNonzero w j hj (h.trans_lt hlt)

/-- Settles O51: with either bound the digits and the quotient are the same functions of the value, and the value fixes
the words. -/
theorem startingBoundDoesNotMatter : Obligations.StartingBoundDoesNotMatter := by
  unfold Obligations.StartingBoundDoesNotMatter
  intro w n nz hlow hnz
  have hbound := boundedBy_of_highestNonzero_le hlow
  have hstart := boundedBy_highestNonzero w
  have hstart_le := highestNonzero_le w
  refine ⟨?_, words_eq_of_u384 ?_⟩
  · rw [divisionLoop_digits n hnz hbound, divisionLoop_digits n hstart_le hstart]
  · rw [u384_divisionLoop n hnz hbound, u384_divisionLoop n hstart_le hstart]

theorem getD_divideOperand_digits (bs : List Byte) {i : Nat} (h : i < 80) :
    (divideOperand bs).digits.getD i 0 = ((u384 (biasedOperand bs) / 27 ^ i % 27 : Nat) : Int) - 13 := by
  have hi : i < (divideOperand bs).digits.length := by rwa [length_divideOperand_digits]
  rw [List.getD_eq_getElem _ 0 hi]
  simp only [divideOperand, divisionLoop_digits 80 (highestNonzero_le _) (boundedBy_highestNonzero _),
    List.getElem_map, List.getElem_range]

/-- Settles O57: stage by stage; the top tryte is read off a quotient of at most 8. -/
theorem divisionLoopExtractsTheDigits : Obligations.DivisionLoopExtractsTheDigits := by
  unfold Obligations.DivisionLoopExtractsTheDigits
  intro bs _
  have hquotient := u384_divideOperand_w_le bs
  exact ⟨u384_biasedOperand bs, fun i => getD_divideOperand_digits bs, u384_divideOperand_w bs, hquotient,
    topTryte_eq hquotient⟩

/-! ### The encoder undoes the decoder (R179) -/

/-- The digits taken off, with the quotient left on top, denote the value they were taken from. -/
theorem ofDigits_divisionLoop (n : Nat) {w : Words} {nz : Nat} (hnz : nz ≤ 11) (h : BoundedBy w nz) :
    Nat.ofDigits 27 (biasedDigits (divisionLoop n w nz).digits ++ [u384 (divisionLoop n w nz).w]) = u384 w := by
  induction n generalizing w nz with
  | zero => exact Nat.ofDigits_singleton
  | succ n ih =>
    have hdigit : ((divRadix w nz).rem - halfTryte + halfTryte : Int).toNat = (divRadix w nz).rem := by
      rw [sub_add_cancel, Int.toNat_natCast]
    rw [divisionLoop, biasedDigits_cons, List.cons_append, Nat.ofDigits_cons,
      ih ((divRadix_nz_le w nz).trans hnz) (boundedBy_divRadix hnz h), hdigit, add_comm]
    exact divRadix_value hnz h

theorem ofDigits_divideOperand (bs : List Byte) :
    Nat.ofDigits 27 (biasedDigits (divideOperand bs).digits ++ [u384 (divideOperand bs).w]) =
      u384 (biasedOperand bs) := by
  rw [divideOperand]
  exact ofDigits_divisionLoop 80 (highestNonzero_le _) (boundedBy_highestNonzero _)

theorem take_decodeValues (bs : List Byte) : (decodeValues bs).take 80 = (divideOperand bs).digits := by
  rw [decodeValues]
  exact List.take_left' (length_divideOperand_digits bs)

theorem getD_decodeValues_top (bs : List Byte) : (decodeValues bs).getD 80 0 = topTryte (divideOperand bs).w := by
  rw [decodeValues, List.getD_eq_getElem?_getD,
    List.getElem?_append_right (length_divideOperand_digits bs).le, length_divideOperand_digits, Nat.sub_self,
    List.getElem?_cons_zero, Option.getD_some]

theorem zeroLastTritValue_decodeValues_top (bs : List Byte) :
    zeroLastTritValue ((decodeValues bs).getD 80 0) = (decodeValues bs).getD 80 0 := by
  obtain ⟨hlow, hhigh⟩ := topTryte_divideOperand_mem bs
  rw [getD_decodeValues_top, zeroLastTritValue_of_small hlow hhigh]

/-- The encoder's top digit is the quotient the decoder left: the top bias is put back on. -/
theorem topDigit_decodeValues (bs : List Byte) : topDigit (decodeValues bs) = u384 (divideOperand bs).w := by
  have htop := cast_topDigit (isTryte_decodeValues bs)
  rw [zeroLastTritValue_decodeValues_top, getD_decodeValues_top, topTryte_eq (u384_divideOperand_w_le bs)] at htop
  unfold topBias at htop
  omega

/-- The Horner core rebuilds the biased operand that the division loop took apart. -/
theorem u384_hornerCore_decodeValues (bs : List Byte) :
    u384 (hornerCore (decodeValues bs)).1 = u384 (biasedOperand bs) := by
  rw [u384_hornerCore (isTryte_decodeValues bs), take_decodeValues, topDigit_decodeValues, ofDigits_divideOperand]

theorem s384_encodeValues_decodeValues (bs : List Byte) :
    s384 (encodeValues (decodeValues bs)) = canonical (bytesVal bs) := by
  obtain ⟨hsub, -⟩ := s384_encodeValues (isTryte_decodeValues bs)
  rw [hsub, u384_hornerCore_decodeValues, u384_biasedOperand, add_sub_cancel_right]

/-- Encoding a decoding canonicalizes the operand, as `ZLT` does. -/
theorem encodeValues_decodeValues (bs : List Byte) : encodeValues (decodeValues bs) = canonInt (loadBytes bs) := by
  rw [← wordsOfInt_s384 (encodeValues (decodeValues bs)), s384_encodeValues_decodeValues, canonInt_eq_wordsOfInt,
    bytesVal_eq_s384]

/-- The value of the decoder's trytes: it is what the encoder makes of them, whose top one is canonical already. -/
theorem trytesVal_decodeValues (bs : List Byte) : trytesVal (decodeValues bs) = canonical (bytesVal bs) := by
  have hval := s384_encodeValues_eq_trytesVal (length_decodeValues bs) (isTryte_decodeValues bs)
  have htop : 80 < (decodeValues bs).length := by rw [length_decodeValues]; decide
  rw [zeroLastTritValue_decodeValues_top, List.getD_eq_getElem _ 0 htop, List.set_getElem_self,
    s384_encodeValues_decodeValues] at hval
  exact hval.symm

/-! ### B2T (R175, R177) -/

theorem map_valueToLetter_eq_map_symbolOf {vs : List Int} (h : ∀ v ∈ vs, IsTryte v) :
    vs.map valueToLetter = vs.map symbolOf :=
  List.map_congr_left fun v hv => valueToLetter_eq_symbolOf (h v hv)

/-- Settles O34: the decoder's trytes have the value of the canonicalized operand, and the ROM's letters are the closed
form. -/
theorem bytesToTrytesCompletes : Obligations.BytesToTrytesCompletes := by
  unfold Obligations.BytesToTrytesCompletes
  intro s bs hlen hslots
  have htrytes := isTryte_decodeValues bs
  have hends := b2tBody_endsIn 48 bs s
  obtain ⟨hlow, hhigh⟩ := topTryte_divideOperand_mem bs
  rw [← getD_decodeValues_top] at hlow hhigh
  rw [map_valueToLetter_eq_map_symbolOf htrytes] at hends
  exact ⟨_, decodeValues bs, exec_b2t_of_bytes hlen hslots,
    hends.completes (by rw [List.length_map, length_decodeValues]; rfl) rfl rfl, length_decodeValues bs, htrytes,
    hlow, hhigh, trytesVal_decodeValues bs, toList_tryteBuffer (length_decodeValues bs)⟩

/-! ### B2TR (R176, R178) -/

/-- The trit expansion of tryte values, least significant trit first (R176). -/
def expandTrits (vs : List Int) : List Int :=
  vs.flatMap fun v => [(valueToTritTriple v).1, (valueToTritTriple v).2.1, (valueToTritTriple v).2.2]

theorem expandTrits_cons (v : Int) (vs : List Int) : expandTrits (v :: vs) =
    (valueToTritTriple v).1 :: (valueToTritTriple v).2.1 :: (valueToTritTriple v).2.2 :: expandTrits vs := rfl

/-- The trit back end writes the slots of the trit expansion. -/
theorem flatMap_tritSlots (vs : List Int) : vs.flatMap tritSlots = (expandTrits vs).map (BitVec.ofInt 8) := by
  rw [expandTrits, List.map_flatMap]
  rfl

theorem length_expandTrits (vs : List Int) : (expandTrits vs).length = 3 * vs.length := by
  simp [expandTrits, List.length_flatMap, mul_comm]

theorem isTrit_expandTrits {vs : List Int} (h : ∀ v ∈ vs, IsTryte v) : ∀ t ∈ expandTrits vs, IsTrit t := by
  intro t ht
  obtain ⟨v, hv, hmem⟩ := List.mem_flatMap.1 ht
  obtain ⟨h0, h1, h2, -⟩ := valueToTritTriple_spec (h v hv)
  have htriple : ∀ x ∈ [(valueToTritTriple v).1, (valueToTritTriple v).2.1, (valueToTritTriple v).2.2], IsTrit x := by
    simp [h0, h1, h2]
  exact htriple t hmem

/-- The encoder's trit front end undoes the decoder's trit back end. -/
theorem combineTrits_expandTrits {vs : List Int} (h : ∀ v ∈ vs, IsTryte v) : combineTrits (expandTrits vs) = vs := by
  induction vs with
  | nil => rfl
  | cons v vs ih =>
    obtain ⟨hv, hvs⟩ := List.forall_mem_cons.1 h
    obtain ⟨-, -, -, hsum⟩ := valueToTritTriple_spec hv
    rw [expandTrits_cons, combineTrits, ih hvs, tritTripleToValue, hsum]

/-- Tryte `i` is the value of trits `3i`, `3i + 1` and `3i + 2` of the expansion. -/
theorem getD_eq_triple_expandTrits {vs : List Int} (h : ∀ v ∈ vs, IsTryte v) {i : Nat} (hi : i < vs.length) :
    vs.getD i 0 = (expandTrits vs).getD (3 * i) 0 + 3 * (expandTrits vs).getD (3 * i + 1) 0 +
      9 * (expandTrits vs).getD (3 * i + 2) 0 := by
  have htriple := getD_combineTrits (expandTrits vs) (i := i) (by rw [length_expandTrits]; omega)
  rwa [combineTrits_expandTrits h] at htriple

theorem isTrit_getD {ts : List Int} (h : ∀ t ∈ ts, IsTrit t) (k : Nat) : IsTrit (ts.getD k 0) := by
  rw [List.getD_eq_getElem?_getD]
  cases hget : ts[k]? with
  | none => exact Or.inr (Or.inl rfl)
  | some t => exact h t (List.mem_of_getElem? hget)

/-- Trit 242 is 0: the top tryte is canonical, so there is no top trit to drop (R140). -/
theorem getD_expandTrits_top (bs : List Byte) : (expandTrits (decodeValues bs)).getD 242 0 = 0 := by
  have htrytes := isTryte_decodeValues bs
  have htrit := isTrit_getD (isTrit_expandTrits htrytes)
  have htop := getD_eq_triple_expandTrits htrytes (i := 80) (by rw [length_decodeValues]; decide)
  obtain ⟨hdrop, -⟩ := zeroLastTritValueDropsTheTopTrit _ _ _ _ (htrit _) (htrit _) (htrit _) htop
  rw [zeroLastTritValue_decodeValues_top] at hdrop
  change (expandTrits (decodeValues bs)).getD (3 * 80 + 2) 0 = 0
  omega

/-- An operation on 48 bytes runs its rule on the bytes themselves. -/
theorem runOperation_of_bytes {s : State} {bs : List Byte} (body : List Byte → State → State) (hlen : bs.length = 48)
    (hslots : Operands s bs) : runOperation 48 byteOperand 48 body s = .next (body bs s) := by
  have hrun := runOperation_of_operands (f := id) body hlen hslots fun b _ => byteOperand_eq b
  rwa [List.map_id] at hrun

theorem exec_b2tr_of_bytes {s : State} {bs : List Byte} (hlen : bs.length = 48) (hslots : Operands s bs) :
    exec (.b2tr 48) s = .next (b2trBody 48 bs s) := by
  rw [exec_b2tr]
  exact runOperation_of_bytes _ hlen hslots

theorem exec_zlt_of_bytes {s : State} {bs : List Byte} (hlen : bs.length = 48) (hslots : Operands s bs) :
    exec (.zlt 48) s = .next (zltBody 48 bs s) := by
  rw [exec_zlt]
  exact runOperation_of_bytes _ hlen hslots

/-- Settles O35: the results are the trit expansion of the trytes that `B2T` leaves in `V`. -/
theorem bytesToTritsCompletes : Obligations.BytesToTritsCompletes := by
  unfold Obligations.BytesToTritsCompletes
  intro s bs hlen hslots
  have htrytes := isTryte_decodeValues bs
  have hcount : (expandTrits (decodeValues bs)).length = 243 := by rw [length_expandTrits, length_decodeValues]
  have hval : tritsVal (expandTrits (decodeValues bs)) = trytesVal (decodeValues bs) := by
    rw [← trytesVal_combineTrits hcount, combineTrits_expandTrits htrytes]
  have hends := b2trBody_endsIn 48 bs s
  rw [flatMap_tritSlots] at hends
  refine ⟨_, expandTrits (decodeValues bs), exec_b2tr_of_bytes hlen hslots,
    hends.completes (by rw [List.length_map, hcount]; rfl) rfl rfl, hcount, isTrit_expandTrits htrytes,
    getD_expandTrits_top bs, hval.trans (trytesVal_decodeValues bs), ?_, fun i hi => ?_,
    _, exec_b2t_of_bytes hlen hslots, rfl⟩
  · exact (congrArg trytesVal (toList_tryteBuffer (length_decodeValues bs))).trans hval.symm
  · exact (getElem_tryteBuffer _ hi).trans
      (getD_eq_triple_expandTrits htrytes (by rw [length_decodeValues]; exact hi))

/-! ### T2B of the symbols B2T makes (R159, R179) -/

/-- The bytes a host finds in the result slots are the results. -/
theorem EndsIn.eq_results {s t : State} {rs xs : List Byte} (h : EndsIn rs s t) (hlen : xs.length = rs.length)
    (hslots : ∀ k, k < rs.length → t.outSlot k = xs[k]?) : xs = rs := by
  refine List.ext_getElem? fun k => ?_
  rcases Nat.lt_or_ge k rs.length with hk | hk
  · rw [← hslots k hk, h.outSlot, if_pos hk]
  · rw [List.getElem?_eq_none (hlen ▸ hk), List.getElem?_eq_none hk]

/-- The letter of a tryte value is a symbol code that stands for the value (R104). -/
theorem symbol_valueToLetter {v : Int} (h : IsTryte v) :
    SymbolCode (valueToLetter v) ∧ symbolValue (valueToLetter v) = v := by
  obtain ⟨-, -, -, hinverse⟩ := lookupFunctionsAreMutuallyInverse
  obtain ⟨hclosed, hnone⟩ := letterToValueIsTheClosedForm (valueToLetter v)
  have hcode : SymbolCode (valueToLetter v) := by
    by_contra hnot
    exact Option.some_ne_none v ((hinverse v h).symm.trans (hnone hnot))
  exact ⟨hcode, Option.some_inj.1 ((hclosed hcode).symm.trans (hinverse v h))⟩

theorem symbolCode_map_valueToLetter {vs : List Int} (h : ∀ v ∈ vs, IsTryte v) :
    ∀ b ∈ vs.map valueToLetter, SymbolCode b :=
  List.forall_mem_map.2 fun v hv => (symbol_valueToLetter (h v hv)).1

theorem map_symbolValue_valueToLetter {vs : List Int} (h : ∀ v ∈ vs, IsTryte v) :
    (vs.map valueToLetter).map symbolValue = vs := by
  rw [List.map_map]
  exact (List.map_congr_left fun v hv => (symbol_valueToLetter (h v hv)).2).trans (List.map_id vs)

/-- Settles O37: `T2B` reads back the decoder's trytes, and encoding those canonicalizes the operand. -/
theorem encodingADecodingCanonicalizes : Obligations.EncodingADecodingCanonicalizes := by
  unfold Obligations.EncodingADecodingCanonicalizes
  rintro s s' bs ss hlen hslots hsslen ⟨t, hexec, hresults⟩ hslots'
  rw [exec_b2t_of_bytes hlen hslots] at hexec
  cases hexec
  have htrytes := isTryte_decodeValues bs
  have hcount : ((decodeValues bs).map valueToLetter).length = 81 := by rw [List.length_map, length_decodeValues]
  obtain rfl : ss = (decodeValues bs).map valueToLetter :=
    (b2tBody_endsIn 48 bs s).eq_results (hsslen.trans hcount.symm) (by rwa [hcount])
  have hrun := exec_t2b_of_symbols hcount hslots' (symbolCode_map_valueToLetter htrytes)
  rw [map_symbolValue_valueToLetter htrytes] at hrun
  have ends := t2bBody_endsIn 81 (decodeValues bs) s'
  rw [encodeValues_decodeValues] at ends
  have zends := zltBody_endsIn 48 bs s
  refine ⟨_, _, hrun, by rw [ends.status], exec_zlt_of_bytes hlen hslots, by rw [zends.status], fun k hk => ?_,
    fun hlow hhigh k hk => ?_⟩
  · rw [ends.outSlot, zends.outSlot, length_storeBytes, if_pos hk, if_pos hk]
  · rw [bytesVal_eq_s384] at hlow hhigh
    rw [ends.outSlot, length_storeBytes, if_pos hk, canonInt_of_mem hlow hhigh, storeBytes_loadBytes hlen]

end Sys2Proof.Machine
end

section
/-! The checks of `Dispatch` (R75) and the two ways they end an operation early: the errors of R201 to R204, in the
priority of R205, and the fault of R210(e). -/

namespace Sys2Proof.Machine

open Sys2Proof.Safety

/-! ### The errors -/

theorem raiseError_illegalOp (s : State) : raiseError .illegalOp s = errorState s .illegalOp 0 0 := rfl

theorem raiseError_lengthError (n : Nat) (s : State) :
    raiseError (.lengthError n) s = errorState s .lengthError (BitVec.ofNat 8 n) 0 := rfl

theorem raiseError_invalidElement (k : Nat) (s : State) :
    raiseError (.invalidElement k) s = errorState s .invalidElement 0 (BitVec.ofNat 8 k) := rfl

/-- A busy core whose move is next ends an illegal command with ILLEGAL_OP (R202). -/
theorem step_busy_error {s : State} {e : DecodeError} (busy : s.status.state = .busy) (next : CoreMovesNext s)
    (hdec : decode s.lcmd = .error e) : step s = .next (forgetHidden (raiseError .illegalOp (popped s))) :=
  calc step s = coreMove (popped s) := step_of_coreMovesNext next
    _ = runCommand (popped s) := coreMove_busy ((isBusy_iff (popped s)).2 busy)
    _ = .next (forgetHidden (raiseError .illegalOp (popped s))) := runCommand_error (s := popped s) hdec

/-- Settles O6: the decoder rejects the word, and what the step forgets after the error no host can see. -/
theorem illegalCommandEndsWithIllegalOp : Obligations.IllegalCommandEndsWithIllegalOp := by
  unfold Obligations.IllegalCommandEndsWithIllegalOp
  intro s busy next illegal
  obtain ⟨e, hdec⟩ := (decoderRejectsExactlyIllegalWords s.lcmd).2 illegal
  refine ⟨_, step_busy_error busy next hdec, ?_⟩
  rw [← raiseError_illegalOp]
  exact sameToHost_forgetHidden nofun

/-- Settles O23: the length check of `runOperation` comes first, with the length of the table. -/
theorem wrongLengthEndsWithLengthError : Obligations.WrongLengthEndsWithLengthError := by
  unfold Obligations.WrongLengthEndsWithLengthError
  intro i s hlen
  obtain ⟨α, element, body, hexec, -, -⟩ := exec_shape i
  rw [hexec, runOperation_wrong_length hlen, raiseError_lengthError]

/-! ### The operand slots in ascending order (R205) -/

/-- Every slot below `IN[k]` is written and valid for the operand kind of `i`, so that the checks come to `IN[k]`. -/
def ValidBelow (i : Instr) (s : State) (k : Nat) : Prop := ∀ j, j < k → ∃ b, s.inSlot j = some b ∧ ValidFor i b

/-- The same in the terms of the fetch, where `element` reads the operand kind of `i`. -/
theorem validBelow_iff {α : Type} {element : Byte → Option α} {i : Instr}
    (hvalid : ∀ b, (∃ x, element b = some x) ↔ ValidFor i b) (s : State) (k : Nat) :
    ValidBelow i s k ↔ ∀ j, j < k → ∃ b x, s.inSlot j = some b ∧ element b = some x := by
  simp only [ValidBelow, ← hvalid, exists_and_left]

theorem element_eq_none {α : Type} {element : Byte → Option α} {i : Instr}
    (hvalid : ∀ b, (∃ x, element b = some x) ↔ ValidFor i b) {b : Byte} (h : ¬ ValidFor i b) : element b = none :=
  Option.eq_none_iff_forall_ne_some.2 fun x hx => h ((hvalid b).1 ⟨x, hx⟩)

/-- Settles O24: the fetch goes past the valid slots and stops at the invalid one. -/
theorem firstInvalidSlotEndsWithInvalidElement : Obligations.FirstInvalidSlotEndsWithInvalidElement := by
  unfold Obligations.FirstInvalidSlotEndsWithInvalidElement
  intro i s k b hlen hk before hslot hbad
  obtain ⟨α, element, body, hexec, hvalid, -⟩ := exec_shape i
  have hfetch : fetchOperands element s 0 (expectedLen i) = .invalid k :=
    fetchOperands_first_invalid hk ((validBelow_iff hvalid s k).1 before) hslot (element_eq_none hvalid hbad)
  rw [hexec, hlen, runOperation_of_invalid hfetch, raiseError_invalidElement]

/-! ### The fault of an unwritten operand (R210(e)) -/

theorem inWritten_eq_false_iff (s : State) (k : Nat) : s.inWritten k = false ↔ s.inSlot k = none := by
  rw [State.inWritten, Option.isSome_eq_false_iff, Option.isNone_iff_eq_none]

theorem fetchOperands_eq_unwritten_iff {α : Type} {element : Byte → Option α} {s : State} {n k : Nat} :
    fetchOperands element s 0 n = .unwritten k ↔
      k < n ∧ (∀ j, j < k → ∃ b x, s.inSlot j = some b ∧ element b = some x) ∧ s.inSlot k = none := by
  constructor
  · intro h
    obtain ⟨-, hk, hslot⟩ := fetchOperands_unwritten h
    exact ⟨by omega, fun j hj => fetchOperands_before (.inl h) j (Nat.zero_le j) hj, hslot⟩
  · rintro ⟨hk, before, hslot⟩
    exact fetchOperands_first_unwritten hk before hslot

theorem runOperation_fault_iff {α : Type} {expected len : Nat} {element : Byte → Option α}
    {body : List α → State → State} {s : State} {r : ProtocolReason} :
    runOperation expected element len body s = .fault (.hostProtocol r) ↔
      len = expected ∧ ∃ k, r = .unwrittenOperand k ∧ fetchOperands element s 0 expected = .unwritten k := by
  constructor
  · intro h
    rcases runOperation_cases expected element len body s with
      ⟨-, hrun⟩ | ⟨hlen, k, hfetch, hrun⟩ | ⟨-, k, -, hrun⟩ | ⟨-, xs, -, hrun⟩ <;> rw [hrun] at h <;> cases h
    exact ⟨hlen, k, rfl, hfetch⟩
  · rintro ⟨rfl, k, rfl, hfetch⟩
    exact runOperation_of_unwritten hfetch

/-- The checks of `i` come to `IN[k]` and find it unwritten (R205, R210(e)). -/
structure ReachesUnwritten (i : Instr) (s : State) (k : Nat) : Prop where
  length : i.len = expectedLen i
  reached : k < expectedLen i
  before : ValidBelow i s k
  clear : s.inWritten k = false

/-- An unwritten operand is the one fault of an operation. -/
theorem exec_fault_iff {i : Instr} {s : State} {r : ProtocolReason} :
    exec i s = .fault (.hostProtocol r) ↔ ∃ k, r = .unwrittenOperand k ∧ ReachesUnwritten i s k := by
  obtain ⟨α, element, body, hexec, hvalid, -⟩ := exec_shape i
  rw [hexec, runOperation_fault_iff]
  simp only [fetchOperands_eq_unwritten_iff, ← validBelow_iff hvalid, ← inWritten_eq_false_iff]
  constructor
  · rintro ⟨hlen, k, hr, hk, before, hclear⟩
    exact ⟨k, hr, hlen, hk, before, hclear⟩
  · rintro ⟨k, hr, hlen, hk, before, hclear⟩
    exact ⟨hlen, k, hr, hk, before, hclear⟩

/-- Settles O25. -/
theorem firstUnwrittenSlotFaults : Obligations.FirstUnwrittenSlotFaults := by
  unfold Obligations.FirstUnwrittenSlotFaults
  intro i s k hlen hk before hclear
  exact exec_fault_iff.2 ⟨k, rfl, hlen, hk, before, hclear⟩

end Sys2Proof.Machine
end

section
/-! When a step stops: for the core's move and for each access exactly the host misuse of R210, and never a refusal.
With it, the core that nobody accesses (R216). -/

namespace Sys2Proof.Machine

open Sys2Proof.Safety

/-! ### The core's move -/

/-- Settles O9. -/
theorem coreHoldsItsStateBetweenOperations : Obligations.CoreHoldsItsStateBetweenOperations := by
  unfold Obligations.CoreHoldsItsStateBetweenOperations
  intro s idle next
  rw [step_of_coreMovesNext next, coreMove_not_busy ((isBusy_eq_false_iff (popped s)).2 idle)]

theorem coreMove_fault_iff {s : State} {r : ProtocolReason} :
    coreMove s = .fault (.hostProtocol r) ↔
      s.status.state = .busy ∧
        ∃ i k, decode s.lcmd = .ok i ∧ r = .unwrittenOperand k ∧ ReachesUnwritten i s k := by
  cases hb : s.isBusy with
  | false => simp [coreMove_not_busy hb, (isBusy_eq_false_iff s).1 hb]
  | true =>
    rw [coreMove_busy hb]
    cases hdec : decode s.lcmd with
    | error e => simp [runCommand_error hdec]
    | ok i => simp [runCommand_ok hdec, retire_fault, exec_fault_iff, (isBusy_iff s).1 hb]

theorem coreMove_ne_refused (s : State) (r : Refusal) : coreMove s ≠ .refused r := by
  cases hb : s.isBusy with
  | false => rw [coreMove_not_busy hb]; nofun
  | true =>
    rw [coreMove_busy hb]
    cases hdec : decode s.lcmd with
    | error e => rw [runCommand_error hdec]; nofun
    | ok i =>
      rw [runCommand_ok hdec, ne_eq, retire_refused]
      rcases exec_outcomes i s with ⟨e, hexec, -⟩ | ⟨k, hexec⟩ | ⟨t, rs, hexec, -⟩ <;> rw [hexec] <;> nofun

/-! ### A host's access -/

theorem hostRead_not_admitted {off n : Nat} (s : State) (h : ¬ ReadAdmitted off n) :
    hostRead off n s = .fault (.hostProtocol (.accessNotAdmitted off n)) := by
  unfold ReadAdmitted at h
  rcases hostRead_cases off n s with ⟨ho, hn, -⟩ | ⟨ho, hn, -⟩ | ⟨hlow, hhigh, hn, -⟩ | ⟨hlow, hhigh, hn, -⟩ |
    ⟨hlow, hhigh, hn, -⟩ | ⟨-, -, -, hr⟩
  case inr.inr.inr.inr.inr => exact hr
  all_goals omega

theorem hostWrite_not_admitted {off n : Nat} (v : Word) (s : State) (h : ¬ WriteAdmitted off n) :
    hostWrite off n v s = .fault (.hostProtocol (.accessNotAdmitted off n)) := by
  unfold WriteAdmitted at h
  rcases hostWrite_cases off n v s with ⟨ho, hn, -⟩ | ⟨ho, hn, -⟩ | ⟨hlow, hhigh, hn, -⟩ | ⟨hlow, hhigh, hn, -⟩ |
    ⟨-, -, hw⟩
  case inr.inr.inr.inr => exact hw
  all_goals omega

/-- A read faults for its shape (R210(a)) or at a result slot that is not valid (R210(d)). -/
theorem hostRead_fault_iff {off n : Nat} {s : State} {r : ProtocolReason} :
    hostRead off n s = .fault (.hostProtocol r) ↔
      (r = .accessNotAdmitted off n ∧ ¬ ReadAdmitted off n) ∨
      ∃ k, k < 256 ∧ off = outAddr k ∧ n = 1 ∧ s.outValid k = false ∧ r = .invalidResultRead k := by
  constructor
  · intro h
    rcases hostRead_cases off n s with ⟨-, -, hr⟩ | ⟨-, -, hr⟩ | ⟨-, -, -, hr⟩ | ⟨-, -, -, b, -, hr⟩ |
      ⟨hlow, hhigh, hn, hclear, hr⟩ | ⟨hstatus, hcount, hslot, hr⟩ <;> rw [hr] at h <;> cases h
    · obtain ⟨k, rfl⟩ : ∃ k, off = outAddr k := ⟨off - 0x200, by unfold outAddr; omega⟩
      have hindex : outAddr k - 0x200 = k := Nat.add_sub_cancel_left _ _
      exact .inr ⟨k, by omega, rfl, hn, (outValid_eq_false_iff s k).2 hclear, by rw [hindex]⟩
    · exact .inl ⟨rfl, by unfold ReadAdmitted; omega⟩
  · rintro (⟨rfl, hbad⟩ | ⟨k, hk, rfl, rfl, hclear, rfl⟩)
    · exact hostRead_not_admitted s hbad
    · exact hostRead_outAddr_of_not_valid hk hclear

theorem hostWrite_command_of_busy {s : State} (v : Word) (busy : s.status.state = .busy) :
    hostWrite 0x000 4 v s = .fault (.hostProtocol .commandWhileBusy) := by
  simp [hostWrite, (isBusy_iff s).2 busy]

theorem hostWrite_inAddr_of_busy {s : State} {k : Nat} (v : Word) (hk : k < 256) (busy : s.status.state = .busy) :
    hostWrite (inAddr k) 1 v s = .fault (.hostProtocol (.operandWriteWhileBusy k)) := by
  have hindex : inAddr k - 0x100 = k := Nat.add_sub_cancel_left _ _
  simp [hostWrite, isInOffset_inAddr hk, (isBusy_iff s).2 busy, hindex]

/-- A write faults for its shape (R210(a)) or because an operation runs (R210(b), (c)). -/
theorem hostWrite_fault_iff {off n : Nat} {v : Word} {s : State} {r : ProtocolReason} :
    hostWrite off n v s = .fault (.hostProtocol r) ↔
      (r = .accessNotAdmitted off n ∧ ¬ WriteAdmitted off n) ∨
      (s.status.state = .busy ∧ off = 0x000 ∧ n = 4 ∧ r = .commandWhileBusy) ∨
      (s.status.state = .busy ∧ ∃ k, k < 256 ∧ off = inAddr k ∧ n = 1 ∧ r = .operandWriteWhileBusy k) := by
  constructor
  · intro h
    rcases hostWrite_cases off n v s with ⟨-, -, -, hw⟩ | ⟨ho, hn, hb, hw⟩ | ⟨-, -, -, -, hw⟩ |
      ⟨hlow, hhigh, hn, hb, hw⟩ | ⟨hcommand, hslot, hw⟩ <;> rw [hw] at h <;> cases h
    · exact .inr (.inl ⟨(isBusy_iff s).1 hb, ho, hn, rfl⟩)
    · obtain ⟨k, rfl⟩ : ∃ k, off = inAddr k := ⟨off - 0x100, by unfold inAddr; omega⟩
      have hindex : inAddr k - 0x100 = k := Nat.add_sub_cancel_left _ _
      exact .inr (.inr ⟨(isBusy_iff s).1 hb, k, by omega, rfl, hn, by rw [hindex]⟩)
    · exact .inl ⟨rfl, by unfold WriteAdmitted; omega⟩
  · rintro (⟨rfl, hbad⟩ | ⟨busy, rfl, rfl, rfl⟩ | ⟨busy, k, hk, rfl, rfl, rfl⟩)
    · exact hostWrite_not_admitted v s hbad
    · exact hostWrite_command_of_busy v busy
    · exact hostWrite_inAddr_of_busy v hk busy

theorem hostAccess_ne_refused (a : HostAccess) (s : State) (r : Refusal) : hostAccess a s ≠ .refused r := by
  cases a with
  | read off n =>
    show hostRead off n s ≠ .refused r
    rcases hostRead_cases off n s with ⟨-, -, h⟩ | ⟨-, -, h⟩ | ⟨-, -, -, h⟩ | ⟨-, -, -, b, -, h⟩ | ⟨-, -, -, -, h⟩ |
      ⟨-, -, -, h⟩ <;> rw [h] <;> nofun
  | write off n v =>
    show hostWrite off n v s ≠ .refused r
    rcases hostWrite_cases off n v s with ⟨-, -, -, h⟩ | ⟨-, -, -, h⟩ | ⟨-, -, -, -, h⟩ | ⟨-, -, -, -, h⟩ |
      ⟨-, -, h⟩ <;> rw [h] <;> nofun

/-! ### A step -/

theorem misuse_of_coreMove {s : State} {r : ProtocolReason} (next : CoreMovesNext s)
    (h : coreMove (popped s) = .fault (.hostProtocol r)) : Misuse s r := by
  obtain ⟨busy, i, k, hdec, rfl, hreach⟩ := coreMove_fault_iff.1 h
  exact .unwrittenOperand i k next busy hdec hreach.length hreach.reached hreach.before hreach.clear

/-- A fault of a step is the misuse of its event. -/
theorem misuse_of_step_fault {s : State} {r : ProtocolReason} (h : step s = .fault (.hostProtocol r)) :
    Misuse s r := by
  cases hagenda : s.agenda with
  | nil => exact misuse_of_coreMove (.inl hagenda) (step_of_coreMovesNext (.inl hagenda) ▸ h)
  | cons e rest =>
    cases e with
    | coreRun =>
      exact misuse_of_coreMove (.inr ⟨rest, hagenda⟩) (step_of_coreMovesNext (.inr ⟨rest, hagenda⟩) ▸ h)
    | reset =>
      rw [step_cons hagenda] at h
      cases h
    | host a =>
      cases a with
      | read off n =>
        rw [step_hostRead hagenda, hostRead_fault_iff] at h
        obtain ⟨rfl, hbad⟩ | ⟨k, hk, rfl, rfl, hclear, rfl⟩ := h
        · exact .readNotAdmitted off n rest hagenda hbad
        · exact .invalidResultRead k rest hk hagenda hclear
      | write off n v =>
        rw [step_hostWrite hagenda, hostWrite_fault_iff] at h
        obtain ⟨rfl, hbad⟩ | ⟨busy, rfl, rfl, rfl⟩ | ⟨busy, k, hk, rfl, rfl, rfl⟩ := h
        · exact .writeNotAdmitted off n v rest hagenda hbad
        · exact .commandWhileBusy v rest hagenda busy
        · exact .operandWriteWhileBusy k v rest hk hagenda busy

theorem step_fault_of_misuse {s : State} {r : ProtocolReason} (h : Misuse s r) :
    step s = .fault (.hostProtocol r) := by
  cases h with
  | readNotAdmitted off n rest next bad => exact (step_hostRead next).trans (hostRead_fault_iff.2 (.inl ⟨rfl, bad⟩))
  | writeNotAdmitted off n v rest next bad =>
    exact (step_hostWrite next).trans (hostWrite_fault_iff.2 (.inl ⟨rfl, bad⟩))
  | commandWhileBusy v rest next busy =>
    exact (step_hostWrite next).trans (hostWrite_fault_iff.2 (.inr (.inl ⟨busy, rfl, rfl, rfl⟩)))
  | operandWriteWhileBusy k v rest slot next busy =>
    exact (step_hostWrite next).trans (hostWrite_fault_iff.2 (.inr (.inr ⟨busy, k, slot, rfl, rfl, rfl⟩)))
  | invalidResultRead k rest slot next clear =>
    exact (step_hostRead next).trans (hostRead_fault_iff.2 (.inr ⟨k, slot, rfl, rfl, clear, rfl⟩))
  | unwrittenOperand i k next busy command length reached before clear =>
    exact (step_of_coreMovesNext next).trans
      (coreMove_fault_iff.2 ⟨busy, i, k, command, rfl, length, reached, before, clear⟩)

theorem step_ne_refused (s : State) (r : Refusal) : step s ≠ .refused r := by
  rw [step_eq_handleEvent]
  cases s.agenda.headD .coreRun with
  | host a => exact hostAccess_ne_refused a (popped s) r
  | coreRun => exact coreMove_ne_refused (popped s) r
  | reset => nofun

/-- Settles O7, by the event of the step: an access is misuse by its own conditions, the core's move by the first
unwritten operand. -/
theorem stepFaultsExactlyOnHostMisuse : Obligations.StepFaultsExactlyOnHostMisuse :=
  ⟨fun _ _ => ⟨misuse_of_step_fault, step_fault_of_misuse⟩, step_ne_refused⟩

end Sys2Proof.Machine
end

section
/-! Several cores on one platform (R221). -/

namespace Sys2Proof.Machine

/-- Everything a platform step that goes on can do: core `k` makes its own step, or there is no core `k`. -/
theorem stepCore_next {p q : Platform} {k : Nat} (h : p.stepCore k = .next q) :
    (p.cores[k]? = none ∧ q = p) ∨
      ∃ s t, p.cores[k]? = some s ∧ step s = .next t ∧ q = { cores := p.cores.set k t } := by
  unfold Platform.stepCore at h
  cases hcore : p.cores[k]? with
  | none =>
    rw [hcore] at h
    cases h
    exact .inl ⟨rfl, rfl⟩
  | some s =>
    cases hstep : step s <;> simp only [hcore, hstep] at h <;> cases h
    exact .inr ⟨s, _, rfl, hstep, rfl⟩

/-- Settles O58: the step sets entry `k` of the list of cores and no other. -/
theorem coresOfAPlatformAreIndependent : Obligations.CoresOfAPlatformAreIndependent := by
  unfold Obligations.CoresOfAPlatformAreIndependent
  intro p q k h
  rcases stepCore_next h with ⟨hnone, rfl⟩ | ⟨s, t, hcore, hstep, rfl⟩
  · exact ⟨rfl, fun _ _ => rfl, fun s hs => nomatch hnone.symm.trans hs⟩
  · obtain ⟨hk, -⟩ := List.getElem?_eq_some_iff.1 hcore
    refine ⟨List.length_set, fun j hj => List.getElem?_set_ne (Ne.symm hj), fun s' hs' => ?_⟩
    obtain rfl : s = s' := Option.some.inj (hcore.symm.trans hs')
    exact ⟨t, hstep, List.getElem?_set_self hk⟩

end Sys2Proof.Machine
end

section
/-! A run as long as the agenda and one step more (R234): each step takes one event off the agenda, and the step past
the last event is the core's move, after which no operation is left running. -/

namespace Sys2Proof.Machine

open Sys2Proof.Safety

/-! ### A step that goes on -/

theorem StepEffect.agenda {u t : State} (h : StepEffect u t) : t.agenda = u.agenda := by
  cases h with
  | completes busy i rs v count ends => exact ends.agenda
  | _ => rfl

/-- A step takes one event off the agenda, if one is left (log entry 1). -/
theorem step_next_agenda {s t : State} (h : step s = .next t) : t.agenda = s.agenda.tail :=
  (step_effect h).agenda

/-- After the core's move no operation is left running (R234). -/
theorem coreMove_next_not_busy {s t : State} (h : coreMove s = .next t) : t.status.state ≠ .busy := by
  cases hb : s.isBusy with
  | false =>
    rw [coreMove_not_busy hb] at h
    cases h
    exact (isBusy_eq_false_iff s).1 hb
  | true =>
    rw [coreMove_busy hb] at h
    cases hdec : decode s.lcmd with
    | error e =>
      rw [runCommand_error hdec] at h
      cases h
      nofun
    | ok i =>
      rw [runCommand_ok hdec] at h
      cases hexec : exec i s <;> rw [hexec] at h <;> cases h
      rw [forgetHidden_status]
      exact exec_next_not_busy hexec

/-! ### The last step of a run -/

/-- One step more: the run goes on from the state it has come to, or it has stopped and stays stopped. -/
theorem run_succ_cases (k : Nat) (s : State) :
    (∃ u, Host.Core.run Sys2Proof.core k s = .next u ∧ Host.Core.run Sys2Proof.core (k + 1) s = step u) ∨
    (∃ r, Host.Core.run Sys2Proof.core k s = .fault r ∧ Host.Core.run Sys2Proof.core (k + 1) s = .fault r) ∨
    (∃ r, Host.Core.run Sys2Proof.core k s = .refused r ∧ Host.Core.run Sys2Proof.core (k + 1) s = .refused r) := by
  induction k generalizing s with
  | zero =>
    refine .inl ⟨s, run_zero s, ?_⟩
    cases hstep : step s with
    | next t => exact run_succ_of_next hstep
    | fault r => exact run_succ_of_fault hstep
    | refused r => exact run_succ_of_refused hstep
  | succ k ih =>
    cases hstep : step s with
    | next t =>
      rw [run_succ_of_next hstep, run_succ_of_next hstep]
      exact ih t
    | fault r => exact .inr (.inl ⟨r, run_succ_of_fault hstep, run_succ_of_fault hstep⟩)
    | refused r => exact .inr (.inr ⟨r, run_succ_of_refused hstep, run_succ_of_refused hstep⟩)

theorem run_succ_next {k : Nat} {s t : State} (h : Host.Core.run Sys2Proof.core (k + 1) s = .next t) :
    ∃ u, Host.Core.run Sys2Proof.core k s = .next u ∧ step u = .next t := by
  rcases run_succ_cases k s with ⟨u, hrun, hlast⟩ | ⟨r, -, hlast⟩ | ⟨r, -, hlast⟩ <;> rw [hlast] at h
  · exact ⟨u, hrun, h⟩
  · cases h
  · cases h

/-! ### How a run ends -/

theorem run_next_agenda {k : Nat} {s t : State} (h : Host.Core.run Sys2Proof.core k s = .next t) :
    t.agenda = s.agenda.drop k := by
  induction k generalizing t with
  | zero =>
    rw [run_zero] at h
    cases h
    rfl
  | succ k ih =>
    obtain ⟨u, hrun, hstep⟩ := run_succ_next h
    rw [step_next_agenda hstep, ih hrun, List.tail_drop]

/-- A run that faults has come to a state of host misuse (R210). -/
theorem run_fault_misuse {n : Nat} {s : State} {r : Fault} (h : Host.Core.run Sys2Proof.core n s = .fault r) :
    ∃ k u reason, k < n ∧ Host.Core.run Sys2Proof.core k s = .next u ∧ r = .hostProtocol reason ∧
      Misuse u reason := by
  induction n with
  | zero => cases h
  | succ n ih =>
    rcases run_succ_cases n s with ⟨u, hrun, hlast⟩ | ⟨r', hrun, hlast⟩ | ⟨r', -, hlast⟩ <;> rw [hlast] at h
    · obtain ⟨reason⟩ := r
      exact ⟨n, u, reason, n.lt_succ_self, hrun, rfl, misuse_of_step_fault h⟩
    · cases h
      obtain ⟨k, u, reason, hk, hstopped⟩ := ih hrun
      exact ⟨k, u, reason, Nat.lt_succ_of_lt hk, hstopped⟩
    · cases h

theorem run_ne_refused (n : Nat) (s : State) (r : Refusal) : Host.Core.run Sys2Proof.core n s ≠ .refused r := by
  induction n with
  | zero => nofun
  | succ n ih =>
    intro h
    rcases run_succ_cases n s with ⟨u, -, hlast⟩ | ⟨r', -, hlast⟩ | ⟨r', hrun, hlast⟩ <;> rw [hlast] at h
    · exact step_ne_refused u r h
    · cases h
    · cases h
      exact ih hrun

/-- A run one step longer than the agenda has used the agenda up, and its last step is the core's move (R234). -/
theorem run_past_agenda {s t : State} (h : Host.Core.run Sys2Proof.core (s.agenda.length + 1) s = .next t) :
    t.agenda = [] ∧ t.status.state ≠ .busy := by
  obtain ⟨u, hrun, hstep⟩ := run_succ_next h
  have hempty : u.agenda = [] := by rw [run_next_agenda hrun, List.drop_length]
  constructor
  · rw [step_next_agenda hstep, hempty, List.tail_nil]
  · rw [step_nil hempty] at hstep
    exact coreMove_next_not_busy hstep

/-- Settles O8, by how the run ends. -/
theorem everyOperationEndsWithTheAgenda : Obligations.EveryOperationEndsWithTheAgenda := by
  unfold Obligations.EveryOperationEndsWithTheAgenda
  intro s
  cases hrun : Host.Core.run Sys2Proof.core (s.agenda.length + 1) s with
  | next t => exact run_past_agenda hrun
  | fault r =>
    obtain ⟨k, u, reason, hk, hstopped⟩ := run_fault_misuse hrun
    exact ⟨k, u, reason, Nat.le_of_lt_succ hk, hstopped⟩
  | refused r => exact run_ne_refused _ s r hrun

end Sys2Proof.Machine
end
